-- ==== Sys2Proof/Word.lean ====
section
/-!
DEFINITION. The one word type of the CORE: memory cells, registers and instruction bytes are all
unsigned 8-bit values (R5, R6, R10, R12, R46).
-/
namespace Sys2Proof

/-- An unsigned 8-bit value: a memory cell, a general register, an opcode or operand byte. -/
abbrev Byte := BitVec 8

end Sys2Proof
end

