-- ==== Sys2Proof/Config.lean ====
section
/-!
DEFINITION. What an implementation of the CORE fixes (R5): the opcode map, which the model takes as an
argument (D7, D21), and the reset value of the stack pointer. The other parameters of R5 are the types
and bounds of `Machine.State` themselves: 256 cells, 8 registers, 8 bits (D1). The spec leaves no
result of an instruction undefined, so there is no free value here.
-/
namespace Sys2Proof

/-- `OPCODE_MAP` (R5, R52): the opcode byte of each instruction. Its default, `opcodeMap`, is in
Decode.lean. -/
structure OpcodeMap where
  ldi : Byte
  prn : Byte
  hlt : Byte
  mul : Byte
  cmp : Byte
  jmp : Byte
  jeq : Byte
  jne : Byte
  deriving DecidableEq, Repr

/-- `SP_RESET` (R5, R17). -/
abbrev Config.spReset : Byte := 0xF4#8

end Sys2Proof
end

