-- ==== Sys2Proof/Syntax.lean ====
section
/-!
DEFINITION. The eight instructions of R45, one constructor each, with the operand bytes that R48
gives a meaning. A register operand is the whole operand byte, 0 to 255 (R14, R50); the bytes an
instruction fetches and does not use are no part of it (R56).
-/
namespace Sys2Proof

/-- An instruction of the CORE (R45, R48). -/
inductive Instr where
  /-- LDI: register index `ra` (destination), immediate `imm` (R81). -/
  | ldi (ra imm : Byte)
  /-- PRN: register index `ra` (source) (R82). -/
  | prn (ra : Byte)
  /-- HLT: no operand (R83). -/
  | hlt
  /-- MUL: register indices `ra` (source and destination) and `rb` (source) (R84). -/
  | mul (ra rb : Byte)
  /-- CMP: register indices of the first and the second operand (R85). -/
  | cmp (ra rb : Byte)
  /-- JMP: index of the register that holds the target (R86). -/
  | jmp (ra : Byte)
  /-- JEQ: index of the register that holds the target (R87). -/
  | jeq (ra : Byte)
  /-- JNE: index of the register that holds the target (R88). -/
  | jne (ra : Byte)
  deriving DecidableEq, Repr

end Sys2Proof
end

