-- ==== Sys2Proof/WellFormed.lean ====
section
/-!
DEFINITION. Well-formedness of an opcode map (R5, D21) and of an instruction (R14).

Every term of `Instr` has an encoding and a meaning, ill-formed ones too: the decoder does not reject a
register index of 8 or more (R50), and executing it raises InvalidRegister. `Instr.wf` tells the
instructions that name only registers the CORE has.
-/
namespace Sys2Proof

/-- The eight opcodes in the source's order (R45). -/
def OpcodeMap.values (m : OpcodeMap) : List Byte :=
  [m.ldi, m.prn, m.hlt, m.mul, m.cmp, m.jmp, m.jeq, m.jne]

/-- What R5 and D21 ask of an opcode map: eight distinct byte values, with the three the source gives
kept as they are. -/
abbrev OpcodeMap.wf (m : OpcodeMap) : Prop :=
  m.values.Nodup ∧ m.ldi = 0x82#8 ∧ m.prn = 0x47#8 ∧ m.hlt = 0x01#8

/-- A register index is valid when it is less than 8; the whole byte counts (R14). -/
abbrev regValid (i : Byte) : Prop := i.toNat < 8

/-- Every register operand of the instruction names one of `x[0]` to `x[7]` (R14, R48). -/
def Instr.wf : Instr → Bool
  | .ldi ra _ => decide (regValid ra)
  | .prn ra => decide (regValid ra)
  | .hlt => true
  | .mul ra rb => decide (regValid ra) && decide (regValid rb)
  | .cmp ra rb => decide (regValid ra) && decide (regValid rb)
  | .jmp ra => decide (regValid ra)
  | .jeq ra => decide (regValid ra)
  | .jne ra => decide (regValid ra)

end Sys2Proof
end

