-- ==== Sys2Proof/Decode.lean ====
section
/-!
DEFINITION. The decoder and the encoder, both over an opcode map (R51 to R58), the default map (R52),
the layout of a word of spec/opcode_table.json, and the assembly spelling of R58.
-/
namespace Sys2Proof

/-- The default `OPCODE_MAP` (R5, R52). LDI, PRN and HLT are the source's; the other five are the spec's
default from general knowledge (D7, G1). UNVERIFIED, unsafe (log entry 11): the statements speak of
every well-formed map. -/
def opcodeMap : OpcodeMap where
  ldi := 0x82#8
  prn := 0x47#8
  hlt := 0x01#8
  mul := 0xA2#8
  cmp := 0xA7#8
  jmp := 0x54#8
  jeq := 0x55#8
  jne := 0x56#8

/-- Why three fetched bytes are no instruction. -/
inductive Reject where
  /-- The opcode byte is not in the map (R54); the cycle raises UnsupportedOperation with it (R70). -/
  | unsupportedOpcode (opcode : Byte)
  deriving DecidableEq, Repr

/-- Why a byte sequence does not begin with an instruction. -/
inductive BytesReject where
  /-- Fewer than the three bytes the eager fetch reads are left (R69). -/
  | tooFewBytes
  /-- The decoder rejects the first three bytes. -/
  | noInstruction (why : Reject)
  deriving DecidableEq, Repr

/-- The decoder (R51, R70): the whole opcode byte is compared with the map, in R77's order, and no other
bit is looked at. An operand byte the instruction does not use is dropped (R56). -/
def decode (m : OpcodeMap) (ir opa opb : Byte) : Except Reject Instr :=
  if ir = m.ldi then .ok (.ldi opa opb)
  else if ir = m.prn then .ok (.prn opa)
  else if ir = m.hlt then .ok .hlt
  else if ir = m.mul then .ok (.mul opa opb)
  else if ir = m.cmp then .ok (.cmp opa opb)
  else if ir = m.jmp then .ok (.jmp opa)
  else if ir = m.jeq then .ok (.jeq opa)
  else if ir = m.jne then .ok (.jne opa)
  else .error (.unsupportedOpcode ir)

/-- The decoder on any bytes, in ascending address order: it looks at the first three (R46, R69). -/
def decodeBytes (m : OpcodeMap) : List Byte → Except BytesReject Instr
  | ir :: opa :: opb :: _ =>
    match decode m ir opa opb with
    | .ok i => .ok i
    | .error why => .error (.noInstruction why)
  | _ => .error .tooFewBytes

/-- The opcode byte of an instruction (R52). -/
def opcodeOf (m : OpcodeMap) : Instr → Byte
  | .ldi _ _ => m.ldi
  | .prn _ => m.prn
  | .hlt => m.hlt
  | .mul _ _ => m.mul
  | .cmp _ _ => m.cmp
  | .jmp _ => m.jmp
  | .jeq _ => m.jeq
  | .jne _ => m.jne

/-- The operand bytes of an instruction, `operand_a` first (R46, R47). -/
def operandBytes : Instr → List Byte
  | .ldi ra imm => [ra, imm]
  | .prn ra => [ra]
  | .hlt => []
  | .mul ra rb => [ra, rb]
  | .cmp ra rb => [ra, rb]
  | .jmp ra => [ra]
  | .jeq ra => [ra]
  | .jne ra => [ra]

/-- The bytes of an instruction in ascending address order (R46, R58). -/
def encode (m : OpcodeMap) (i : Instr) : List Byte :=
  opcodeOf m i :: operandBytes i

/-- The length in bytes by format (R47, R57): F1 is 1, F2 is 2, F3r and F3i are 3. R53 gives JMP no
sequential advance; its two bytes are R58's encoding. -/
def Instr.length : Instr → Nat
  | .ldi _ _ => 3
  | .prn _ => 2
  | .hlt => 1
  | .mul _ _ => 3
  | .cmp _ _ => 3
  | .jmp _ => 2
  | .jeq _ => 2
  | .jne _ => 2

/-- Byte `k` of a word of `nbits` bits numbered as spec/opcode_table.json numbers them: the first byte
of the instruction is bits 7 to 0. Bits from `nbits` up are zero. -/
def tableByte (nbits w k : Nat) : Byte :=
  BitVec.ofNat 8 ((w % 2 ^ nbits) / 2 ^ (8 * k))

/-- The three bytes the eager fetch reads of such a word (R69). -/
def tableBytes (nbits w : Nat) : List Byte :=
  [tableByte nbits w 0, tableByte nbits w 1, tableByte nbits w 2]

/-- What the decoder reads from a word of the opcode table, with the default map. -/
def decodeTableWord (nbits w : Nat) : Option Instr :=
  match decodeBytes opcodeMap (tableBytes nbits w) with
  | .ok i => some i
  | .error _ => none

/-- `R<n>`, the spelling of a register operand (R58, D20). -/
def asmReg (i : Byte) : String := "R" ++ toString i.toNat

/-- The assembly spelling of an instruction (R58, D20), immediates in decimal. -/
def toAsm : Instr → String
  | .ldi ra imm => "LDI " ++ asmReg ra ++ ", " ++ toString imm.toNat
  | .prn ra => "PRN " ++ asmReg ra
  | .hlt => "HLT"
  | .mul ra rb => "MUL " ++ asmReg ra ++ ", " ++ asmReg rb
  | .cmp ra rb => "CMP " ++ asmReg ra ++ ", " ++ asmReg rb
  | .jmp ra => "JMP " ++ asmReg ra
  | .jeq ra => "JEQ " ++ asmReg ra
  | .jne ra => "JNE " ++ asmReg ra

end Sys2Proof
end

