-- ==== Sys2Proof/Machine/State.lean ====
section
/-!
DEFINITION. The state of the CORE as plain data, field by field as 10_state.md lists it, with the one
port bit that holds a value (`host_wr_err`), and the host's moves still to come. Reset (R105).
-/
namespace Sys2Proof.Machine

/-- Memory (R10): the cells that differ from what an unlisted address reads as, by rising address. -/
abbrev Memory := List Host.Cell

/-- What an address that memory does not list reads as: memory is zero-initialised (R10, R40). -/
def unlistedByte : Byte := 0#8

/-- The one canonical form of memory: addresses strictly rising, all below 256 (R10), and no entry equal
to what an unlisted address reads as. -/
abbrev Memory.wf (mem : Memory) : Prop :=
  mem.Pairwise (fun c d => c.1 < d.1) ∧ ∀ c ∈ mem, c.1 < 256 ∧ c.2 ≠ unlistedByte

/-- The three comparison flags (R18): separate bits, written as a group of three (R25). -/
structure Flags where
  /-- `E`, Equal. -/
  e : Bool
  /-- `G`, Greater. -/
  g : Bool
  /-- `L`, Less. -/
  l : Bool
  deriving DecidableEq, Repr

/-- The state of the fetch-decode-execute FSM (R19). -/
inductive RunState where
  | load
  | running
  | halted
  | faulted
  deriving DecidableEq, Repr

/-- The fault record (R23): one of the three kinds of R89 with its info. -/
inductive FaultRecord where
  /-- AddressOutOfRange: the address (R90). -/
  | addressOutOfRange (addr : Nat)
  /-- InvalidRegister: the index byte (R91). -/
  | invalidRegister (index : Byte)
  /-- UnsupportedOperation: the opcode byte, or the ALU op value (R92). -/
  | unsupportedOperation (info : Byte)
  deriving DecidableEq, Repr

/-- What the host drives at one instruction boundary (R100). Reading (`out`, the status, the observation
port) changes no state and is no move: see HostPort.lean. -/
inductive HostMove where
  /-- The host drives nothing: the CORE has its turn. -/
  | idle
  /-- The `reset` input (R104). -/
  | reset
  /-- The load port, with 9 address bits (R37, R44). -/
  | write (addr : BitVec 9) (data : Byte)
  /-- The `start` input (R20). -/
  | start
  /-- A write of a general register: refused in every run state (R100). -/
  | writeReg (index : Byte) (data : Byte)
  /-- A write of the program counter: refused in every run state (R100). -/
  | writePc (addr : BitVec 9)
  /-- A write of the stack pointer: refused in every run state (R100). -/
  | writeSp (data : Byte)
  /-- A write of the flags: refused in every run state (R100). -/
  | writeFlags (flags : Flags)
  deriving DecidableEq, Repr

/-- The state of the machine. -/
structure State where
  /-- The 256 cells (R10). -/
  mem : Memory
  /-- The general registers `x[0]` to `x[7]` (R12). -/
  x : Vector Byte 8
  /-- The program counter, a natural number that never wraps (R15). -/
  pc : Nat
  /-- The stack pointer (R17). -/
  sp : Byte
  /-- `E`, `G`, `L` (R18). -/
  flags : Flags
  /-- `run_state` (R19). -/
  runState : RunState
  /-- The latch of the opcode byte (R21). -/
  ir : Byte
  /-- The latch of the byte at `pc + 1` (R21). -/
  opa : Byte
  /-- The latch of the byte at `pc + 2` (R21). -/
  opb : Byte
  /-- The output channel's log, oldest first (R22). -/
  out : List Byte
  /-- The fault record, empty until a fatal condition (R23). -/
  fault : Option FaultRecord
  /-- `host_wr_err` (R38): the last host write was refused with AddressOutOfRange. -/
  hostWrErr : Bool
  /-- The MODEL's own field: the host's moves still to come, one a step, soonest first; where it ends the
  host drives nothing more. DESIGN CHOICE, safe (log entry 2). -/
  inputs : List HostMove
  deriving DecidableEq, Repr

/-- Why a step would stop the model with a fault: there is no reason. Every fatal condition of the CORE
has an entry the spec describes (R93), so it is a NEXT state in FAULTED (log entry 8, safe). Nobody
raises this type. -/
inductive Fault where
  deriving DecidableEq, Repr

/-- Why the model gives an instruction no meaning. -/
inductive Refusal where
  /-- Raised only by an arm of `exec` for an instruction that has no meaning yet; safe. No arm raises it:
  every instruction has its meaning. -/
  | notModelled (mnemonic : String)
  deriving DecidableEq, Repr

/-- The machine right after reset (R105). The values of `x`, `pc` and the flags are the spec's decisions
D4, D3, D5 (log entries 15, 14, 16); the latches' are DESIGN CHOICE, unsafe (log entry 5); `inputs` is
DESIGN CHOICE (log entry 2). -/
def State.reset : State where
  mem := []
  x := Vector.replicate 8 0#8
  pc := 0
  sp := Config.spReset
  flags := { e := false, g := false, l := false }
  runState := .load
  ir := 0#8
  opa := 0#8
  opb := 0#8
  out := []
  fault := none
  hostWrErr := false
  inputs := []

end Sys2Proof.Machine
end

