-- ==== Sys2Proof/Machine/Ops.lean ====
section
/-!
DEFINITION. The named operations on the state: memory (R30), the program counter (R72, R73), the output
channel (R99), the run state (R20), the fetch latches (R21), fault entry (R93) and reset (R104).
-/
namespace Sys2Proof.Machine

/-- The byte memory holds at an address of the 256. -/
def cellAt : Memory → Nat → Byte
  | [], _ => unlistedByte
  | (b, v) :: rest, a => if b = a then v else cellAt rest a

/-- Puts an entry in front, unless an unlisted address reads as that byte anyway. -/
def listCell (a : Nat) (v : Byte) (rest : Memory) : Memory :=
  if v = unlistedByte then rest else (a, v) :: rest

/-- Sets the cell at `a` to `v`, keeping the canonical form. -/
def putCell : Memory → Nat → Byte → Memory
  | [], a, v => listCell a v []
  | (b, w) :: rest, a, v =>
    if a < b then listCell a v ((b, w) :: rest)
    else if a = b then listCell a v rest
    else (b, w) :: putCell rest a v

/-- `MemRead(addr, 1)` (R7, R30). The address is compared in full (R44). -/
def memRead (mem : Memory) (a : Nat) : Except FaultRecord Byte :=
  if a < 256 then .ok (cellAt mem a) else .error (.addressOutOfRange a)

/-- `MemWrite(addr, 1, v)` (R7, R30). Only the host's load port issues it (R36). -/
def memWrite (mem : Memory) (a : Nat) (v : Byte) : Except FaultRecord Memory :=
  if a < 256 then .ok (putCell mem a v) else .error (.addressOutOfRange a)

/-- Replaces the memory array. -/
def setMem (mem : Memory) (s : State) : State := { s with mem := mem }

/-- `pc <- a` (R7). -/
def setPc (a : Nat) (s : State) : State := { s with pc := a }

/-- `pc <- pc + n`, as a natural number that does not wrap (R72, R73). -/
def advance (n : Nat) (s : State) : State := setPc (s.pc + n) s

/-- `pc <- t` for a jump target, which replaces `pc` outright (R72). -/
def jumpTo (t : Byte) (s : State) : State := setPc t.toNat s

/-- `Emit(v)` (R7, R99): appends to the output log. -/
def emit (v : Byte) (s : State) : State := { s with out := s.out ++ [v] }

/-- `run_state <- r` (R7). -/
def setRunState (r : RunState) (s : State) : State := { s with runState := r }

/-- The latch of the opcode byte (R68). -/
def latchIr (v : Byte) (s : State) : State := { s with ir := v }

/-- The latch of the byte at `pc + 1` (R69). -/
def latchOpa (v : Byte) (s : State) : State := { s with opa := v }

/-- The latch of the byte at `pc + 2` (R69). -/
def latchOpb (v : Byte) (s : State) : State := { s with opb := v }

/-- `host_wr_err <- b` (R38). -/
def setHostWrErr (b : Bool) (s : State) : State := { s with hostWrErr := b }

/-- Replaces the host's moves still to come. -/
def setInputs (ms : List HostMove) (s : State) : State := { s with inputs := ms }

/-- Fault entry (R93): the record and FAULTED together, and nothing else. `pc` keeps the address of the
opcode. There is no return from it (R95); `resetCore` is the only way out. -/
def takeFault (f : FaultRecord) (s : State) : State := { s with fault := some f, runState := .faulted }

/-- `reset` (R104): every piece of the spec's state at its reset value, in one step. The host's moves
still to come are the host's own and stay. -/
def resetCore (s : State) : State := setInputs s.inputs State.reset

/-- The end of an instruction's step (R8): the state it wrote, whole, if nothing was raised; else fault
entry on the state it began with. -/
def commit (s : State) : Except FaultRecord State → Host.Outcome State Fault Refusal
  | .ok t => .next t
  | .error f => .next (takeFault f s)

end Sys2Proof.Machine
end

