-- ==== Sys2Proof/Machine/Flags.lean ====
section
/-!
DEFINITION. The flag computation of the ALU's CMP and the flag write (R18, R64).
-/
namespace Sys2Proof.Machine

/-- `alu_cmp(va, vb)` (R64): the triple (E, G, L) of the unsigned comparison. -/
def aluCmp (va vb : Byte) : Flags :=
  if va = vb then { e := true, g := false, l := false }
  else if va.toNat > vb.toNat then { e := false, g := true, l := false }
  else { e := false, g := false, l := true }

/-- `(E, G, L) <- (e, g, l)`: all three at once (R7, R18, R25). -/
def setFlags (f : Flags) (s : State) : State := { s with flags := f }

end Sys2Proof.Machine
end

