-- ==== Sys2Proof/Machine/Operands.lean ====
section
/-!
DEFINITION. The operand forms of R48: a register that is read, a register that is written, and two
registers read `operand_a` first. An immediate is the operand byte itself (R49).
-/
namespace Sys2Proof.Machine

/-- `x[i]` (R7, R14): the index is the whole byte and is not masked. -/
def readReg (i : Byte) (s : State) : Except FaultRecord Byte :=
  if h : i.toNat < 8 then .ok s.x[i.toNat] else .error (.invalidRegister i)

/-- `x[i] <- v` (R7, R14). -/
def writeReg (i : Byte) (v : Byte) (s : State) : Except FaultRecord State :=
  if h : i.toNat < 8 then .ok { s with x := s.x.set i.toNat v h } else .error (.invalidRegister i)

/-- The register read, handed on. -/
def withReg (i : Byte) (s : State) (k : Byte → Except FaultRecord State) : Except FaultRecord State :=
  match readReg i s with
  | .ok v => k v
  | .error f => .error f

/-- `x[a]`, then `x[b]` (R61, R97): `a` is checked before `b`. -/
def withRegs (a b : Byte) (s : State) (k : Byte → Byte → Except FaultRecord State) :
    Except FaultRecord State :=
  withReg a s fun va => withReg b s fun vb => k va vb

end Sys2Proof.Machine
end

