-- ==== Sys2Proof/Machine/Alu.lean ====
section
/-!
DEFINITION. The ALU (40_alu.md): three pure functions on two bytes, and the interface `ALU(op, a, b)` on
register indices. ADD is an operation with no opcode (R45, R62).
-/
namespace Sys2Proof.Machine

/-- The operations of the ALU (R61). -/
inductive AluOp where
  | add
  | mul
  | cmp
  deriving DecidableEq, Repr

/-- The 2-bit op select (R65, D26). -/
def aluSelect : AluOp → BitVec 2
  | .add => 0#2
  | .mul => 1#2
  | .cmp => 2#2

/-- The operation of an op select; the value 3 is the unsupported case (R65, D26). -/
def aluOpOf (sel : BitVec 2) : Option AluOp :=
  if sel = 0#2 then some .add
  else if sel = 1#2 then some .mul
  else if sel = 2#2 then some .cmp
  else none

/-- `alu_add(va, vb)` (R62, R66): exact, then modulo 256. -/
def aluAdd (va vb : Byte) : Byte := BitVec.ofNat 8 (va.toNat + vb.toNat)

/-- `alu_mul(va, vb)` (R63, R66): exact, then modulo 256. -/
def aluMul (va vb : Byte) : Byte := BitVec.ofNat 8 (va.toNat * vb.toNat)

/-- An operation of the set on two register indices (R61): both registers are read, `a` first, then the
result is written to `x[a]` or to the flags. -/
def aluApply (op : AluOp) (a b : Byte) (s : State) : Except FaultRecord State :=
  withRegs a b s fun va vb =>
    match op with
    | .add => writeReg a (aluAdd va vb) s
    | .mul => writeReg a (aluMul va vb) s
    | .cmp => .ok (setFlags (aluCmp va vb) s)

/-- `ALU(op, a, b)` with `op` as the 2-bit select (R61, R65). An unsupported value reads and writes
nothing and is raised with the op value as info. -/
def alu (sel : BitVec 2) (a b : Byte) (s : State) : Except FaultRecord State :=
  match aluOpOf sel with
  | some op => aluApply op a b s
  | none => .error (.unsupportedOperation (sel.setWidth 8))

end Sys2Proof.Machine
end

