-- ==== Sys2Proof/Machine/AluInstructions.lean ====
section
/-!
DEFINITION. MUL and CMP (44_alu_instructions.md).
-/
namespace Sys2Proof.Machine

/-- MUL (R84). -/
def execMul (ra rb : Byte) (s : State) : Host.Outcome State Fault Refusal :=
  commit s ((alu (aluSelect .mul) ra rb s).map (advance 3))

/-- CMP (R85). -/
def execCmp (ra rb : Byte) (s : State) : Host.Outcome State Fault Refusal :=
  commit s ((alu (aluSelect .cmp) ra rb s).map (advance 3))

end Sys2Proof.Machine
end

