-- ==== Sys2Proof/Machine/Branch.lean ====
section
/-!
DEFINITION. JMP, JEQ and JNE (45_branch.md).
-/
namespace Sys2Proof.Machine

/-- A taken jump: the register is read, and checked, only here (R86 to R88). -/
def jumpReg (ra : Byte) (s : State) : Except FaultRecord State :=
  withReg ra s fun t => .ok (jumpTo t s)

/-- JMP (R86). -/
def execJmp (ra : Byte) (s : State) : Host.Outcome State Fault Refusal :=
  commit s (jumpReg ra s)

/-- JEQ (R87): a jump not taken does not read the register (D12). -/
def execJeq (ra : Byte) (s : State) : Host.Outcome State Fault Refusal :=
  commit s (if s.flags.e = true then jumpReg ra s else .ok (advance 2 s))

/-- JNE (R88): a jump not taken does not read the register (D12). -/
def execJne (ra : Byte) (s : State) : Host.Outcome State Fault Refusal :=
  commit s (if s.flags.e = false then jumpReg ra s else .ok (advance 2 s))

end Sys2Proof.Machine
end

