-- ==== Sys2Proof/Machine/Halt.lean ====
section
/-!
DEFINITION. HLT (43_halt.md).
-/
namespace Sys2Proof.Machine

/-- HLT (R83). -/
def execHlt (s : State) : Host.Outcome State Fault Refusal :=
  commit s (.ok (advance 1 (setRunState .halted s)))

end Sys2Proof.Machine
end

