-- ==== Sys2Proof/Machine/LoadOutput.lean ====
section
/-!
DEFINITION. LDI and PRN (42_load_output.md).
-/
namespace Sys2Proof.Machine

/-- LDI (R81). -/
def execLdi (ra imm : Byte) (s : State) : Host.Outcome State Fault Refusal :=
  commit s ((writeReg ra imm s).map (advance 3))

/-- PRN (R82). -/
def execPrn (ra : Byte) (s : State) : Host.Outcome State Fault Refusal :=
  commit s (withReg ra s fun v => .ok (advance 2 (emit v s)))

end Sys2Proof.Machine
end

