-- ==== Sys2Proof/Machine/Cycle.lean ====
section
/-!
DEFINITION. The fetch-decode-execute cycle (41_cycle.md), over an opcode map.
-/
namespace Sys2Proof.Machine

/-- The fetch phase (R68, R69): three reads in order, each latched as it is made. It answers the state
with the latches written so far, and the fault of the first read that raised one. -/
def fetch (s : State) : State × Option FaultRecord :=
  match memRead s.mem s.pc with
  | .error f => (s, some f)
  | .ok ir =>
    match memRead s.mem (s.pc + 1) with
    | .error f => (latchIr ir s, some f)
    | .ok opa =>
      match memRead s.mem (s.pc + 2) with
      | .error f => (latchOpa opa (latchIr ir s), some f)
      | .ok opb => (latchOpb opb (latchOpa opa (latchIr ir s)), none)

/-- The fault that a rejected opcode raises (R70, R92). -/
def rejectFault : Reject → FaultRecord
  | .unsupportedOpcode opcode => .unsupportedOperation opcode

/-- Decode and dispatch on the latches (R70). -/
def dispatch (m : OpcodeMap) (s : State) : Host.Outcome State Fault Refusal :=
  match decode m s.ir s.opa s.opb with
  | .ok i => exec i s
  | .error r => .next (takeFault (rejectFault r) s)

/-- One cycle (R77). -/
def cycle (m : OpcodeMap) (s : State) : Host.Outcome State Fault Refusal :=
  match fetch s with
  | (t, some f) => .next (takeFault f t)
  | (t, none) => dispatch m t

/-- The CORE's turn (R67): a cycle while RUNNING. In LOAD, HALTED and FAULTED no cycle runs and nothing
changes (log entry 4). -/
def coreTurn (m : OpcodeMap) (s : State) : Host.Outcome State Fault Refusal :=
  if s.runState = .running then cycle m s else .next s

end Sys2Proof.Machine
end

