-- ==== Sys2Proof/Machine/HostPort.lean ====
section
/-!
DEFINITION. What the host may do and see (R100): its moves, the status ports (R89), the observation port
(R101), the output events and their rendering (R99), the boot sequence (R106) and the launch state (R107).
-/
namespace Sys2Proof.Machine

/-- A write through the load port (R37 to R39): admitted in LOAD only; at 256 or above no cell changes and
`host_wr_err` is set; elsewhere refused, with no change of state. An admitted write in range clears
`host_wr_err`: DEDUCED, unsafe (log entry 7). -/
def hostWrite (a : Nat) (v : Byte) (s : State) : State :=
  if s.runState = .load then
    match memWrite s.mem a v with
    | .ok mem => setHostWrErr false (setMem mem s)
    | .error _ => setHostWrErr true s
  else s

/-- `start` (R20): LOAD to RUNNING; no effect elsewhere. -/
def hostStart (s : State) : State :=
  if s.runState = .load then setRunState .running s else s

/-- The effect of a move of the host on the state (R100). A refused move changes nothing. -/
def hostMove (move : HostMove) (s : State) : State :=
  match move with
  | .idle => s
  | .reset => resetCore s
  | .write a v => hostWrite a.toNat v s
  | .start => hostStart s
  | .writeReg _ _ => s
  | .writePc _ => s
  | .writeSp _ => s
  | .writeFlags _ => s

/-- The port `run_state` (R19, D19). -/
def runStateCode (s : State) : BitVec 2 :=
  match s.runState with
  | .load => 0#2
  | .running => 1#2
  | .halted => 2#2
  | .faulted => 3#2

/-- The port `fault_kind` (R89, D10). -/
def faultKind (s : State) : BitVec 2 :=
  match s.fault with
  | none => 0#2
  | some (.addressOutOfRange _) => 1#2
  | some (.invalidRegister _) => 2#2
  | some (.unsupportedOperation _) => 3#2

/-- The port `fault_info`, 9 bits (R89, D10). -/
def faultInfo (s : State) : BitVec 9 :=
  match s.fault with
  | none => 0#9
  | some (.addressOutOfRange a) => BitVec.ofNat 9 a
  | some (.invalidRegister i) => i.setWidth 9
  | some (.unsupportedOperation v) => v.setWidth 9

/-- What the observation port shows (R101): the architectural state, which R79 lists; the fetch latches
are hidden (R21). -/
structure Observation where
  mem : Memory
  x : Vector Byte 8
  pc : Nat
  sp : Byte
  flags : Flags
  out : List Byte
  fault : Option FaultRecord
  runState : RunState
  deriving DecidableEq, Repr

/-- The observation port (R100, R101): refused while RUNNING. It changes no state. -/
def observe (s : State) : Option Observation :=
  if s.runState = .running then none
  else some { mem := s.mem, x := s.x, pc := s.pc, sp := s.sp, flags := s.flags, out := s.out,
              fault := s.fault, runState := s.runState }

/-- The output events of a step from `s` to `t` (R99): the bytes that `out` gained, in order. The port
`out_valid` is whether there is one, and `out_data` is its value (log entry 32). -/
def outEvents (s t : State) : List Byte := t.out.drop s.out.length

/-- The host sink's text of one output byte (R99, D13), as character codes: unsigned decimal digits with
no leading zero, then a line feed. -/
def renderByte (v : Byte) : List Byte :=
  let digit (n : Nat) : Byte := BitVec.ofNat 8 (0x30 + n % 10)
  let n := v.toNat
  (if n < 10 then [digit n]
   else if n < 100 then [digit (n / 10), digit n]
   else [digit (n / 100), digit (n / 10), digit n]) ++ [0x0A#8]

/-- The host sink's text of an output log (R99). -/
def renderOut (out : List Byte) : List Byte := out.flatMap renderByte

/-- The host writes that load an image from address `a` on (R60, R106). The port carries 9 address bits. -/
def loadMoves (a : Nat) : List Byte → List HostMove
  | [] => []
  | v :: image => .write (BitVec.ofNat 9 a) v :: loadMoves (a + 1) image

/-- The boot sequence of a program image after reset (R106): load from address 0, then `start`. -/
def bootMoves (image : List Byte) : List HostMove := loadMoves 0 image ++ [.start]

/-- Memory with an image laid from address `a` on (R60). -/
def layImage (a : Nat) (mem : Memory) : List Byte → Memory
  | [] => mem
  | v :: image => layImage (a + 1) (putCell mem a v) image

/-- The launch state of a program image (R107): the reset state with `mem` set to the image and
`run_state = RUNNING`. -/
def launch (image : List Byte) : State :=
  setRunState .running (setMem (layImage 0 [] image) State.reset)

/-- The machine at the start of a boot: reset, with the boot sequence still to come (R106). -/
def bootState (image : List Byte) : State := setInputs (bootMoves image) State.reset

/-- Lays bytes at consecutive addresses of those that exist, replacing what is there. -/
def placeBytes (a : Nat) (bytes : List Byte) (s : State) : State :=
  match bytes with
  | [] => s
  | v :: rest =>
    match memWrite s.mem a v with
    | .ok mem => placeBytes (a + 1) rest (setMem mem s)
    | .error _ => s

end Sys2Proof.Machine
end

