-- ==== Sys2Proof/Machine/Step.lean ====
section
/-!
DEFINITION. One step of the machine (D16): the host's next move, or the CORE's turn. The opcode map is an
argument (D7); `step` takes the default.
-/
namespace Sys2Proof.Machine

/-- One step over an opcode map. If the host drives a move, the step is that move (R100), taken at an
instruction boundary (R104); if it drives nothing, the CORE has its turn (R67). -/
def stepWith (m : OpcodeMap) (s : State) : Host.Outcome State Fault Refusal :=
  match s.inputs with
  | [] => coreTurn m s
  | .idle :: rest => coreTurn m (setInputs rest s)
  | move :: rest => .next (hostMove move (setInputs rest s))

/-- One step with the default opcode map (R5, R52). -/
def step (s : State) : Host.Outcome State Fault Refusal := stepWith opcodeMap s

/-- The state in which the very next step fetches and runs a word of the opcode table: its three bytes at
`pc`, RUNNING, and no host move in front (log entry 1). From a `pc` of at most 253, the highest address
an instruction runs at (R69, R109). -/
def State.withFetchWord (s : State) (nbits w : Nat) : State :=
  setInputs [] (setRunState .running (placeBytes s.pc (tableBytes nbits w) s))

end Sys2Proof.Machine
end

