-- ==== Sys2Proof/Safety.lean ====
section
/-!
DEFINITION. What claims speak of: the machine over any opcode map, the invariant of its states, and what
an ended run shows about its end.
-/
namespace Sys2Proof

/-- The machine over an opcode map (D7); `core` is that of the default map. -/
def coreWith (m : OpcodeMap) : Host.Core where
  State := Machine.State
  Fault := Machine.Fault
  Refusal := Machine.Refusal
  step := Machine.stepWith m
  reset := Machine.State.reset

namespace Machine

/-- No two of the three flags are set (R18, C4): the flags are those of reset or of one comparison. -/
def Flags.exclusive (f : Flags) : Bool :=
  !(f.e && f.g) && !(f.e && f.l) && !(f.g && f.l)

/-- The host drives no move in the coming step, so the CORE has its turn. -/
abbrev State.coreHasTurn (s : State) : Prop := s.inputs.head? = none ∨ s.inputs.head? = some .idle

/-- The invariant of the machine's states. -/
structure State.Inv (s : State) : Prop where
  /-- Memory is in its canonical form, within 256 cells (R10). -/
  mem_wf : s.mem.wf
  /-- `pc` never exceeds 256 (R15, R73). -/
  pc_le : s.pc ≤ 256
  /-- `sp` keeps its reset value (R17). -/
  sp_const : s.sp = Config.spReset
  /-- The flags are mutually exclusive (R18). -/
  flags_exclusive : s.flags.exclusive = true
  /-- The fault record and FAULTED go together (R23). -/
  fault_iff : s.fault.isSome = true ↔ s.runState = .faulted
  /-- In LOAD nothing has run: `x`, `pc`, the flags and `out` are as reset leaves them (R67, R100). -/
  load_fresh : s.runState = .load →
    s.x = State.reset.x ∧ s.pc = 0 ∧ s.flags = State.reset.flags ∧ s.out = []

/-- The three bytes at `pc`, decoded. -/
def State.decodeAtPc (m : OpcodeMap) (s : State) : Except Reject Instr :=
  decode m (cellAt s.mem s.pc) (cellAt s.mem (s.pc + 1)) (cellAt s.mem (s.pc + 2))

/-- What a fault record shows about the instruction at `pc` (R89 to R93). -/
def FaultRecord.shownBy (m : OpcodeMap) (s : State) : FaultRecord → Prop
  | .addressOutOfRange a => a = 256 ∧ 254 ≤ s.pc ∧ s.pc ≤ 256
  | .unsupportedOperation v => s.pc ≤ 253 ∧ cellAt s.mem s.pc = v ∧ v ∉ m.values
  | .invalidRegister r =>
    8 ≤ r.toNat ∧ s.pc ≤ 253 ∧ ∃ i, s.decodeAtPc m = .ok i ∧ i.wf = false ∧ r ∈ operandBytes i

/-- What the end of a run shows: a fault record is explained by the bytes at `pc`, and HALTED is entered
only by HLT, whose opcode lies just below `pc` (R83, R93). -/
structure State.EndShown (m : OpcodeMap) (s : State) : Prop where
  fault_shown : ∀ f, s.fault = some f → f.shownBy m s
  halt_shown : s.runState = .halted → 1 ≤ s.pc ∧ s.pc ≤ 254 ∧ cellAt s.mem (s.pc - 1) = m.hlt

end Machine

end Sys2Proof
end

