-- ==== Sys2Proof/Certificates/Slice0/Obligations.lean ====
section
/-!
DEFINITION. The statements for the provers, from the numbered rules of spec/. They speak of every opcode
map where an opcode matters (D7), and of every state unless an invariant is named.
-/
open Sys2Proof Sys2Proof.Machine

/-! ### Reset, the invariant, and the whole machine -/

/-- What reset leaves (R105): memory zero and SP 0xF4 are the source's; `x`, `pc`, the flags, LOAD, the empty
log and the fault ports are the spec's own decisions D4, D3, D5, D19, D27, D10, D15 (log entries 14 to 16,
20, 25, 27, 31). -/
def Obligations.ResetLeavesTheSpecsValues : Prop :=
  (∀ a < 256, memRead State.reset.mem a = .ok 0#8) ∧
  (∀ i : Byte, i.toNat < 8 → readReg i State.reset = .ok 0#8) ∧
  State.reset.pc = 0 ∧ State.reset.sp = 0xF4#8 ∧
  State.reset.flags.e = false ∧ State.reset.flags.g = false ∧ State.reset.flags.l = false ∧
  State.reset.runState = .load ∧ State.reset.out = [] ∧ State.reset.fault = none ∧
  faultKind State.reset = 0#2 ∧ faultInfo State.reset = 0#9 ∧ State.reset.hostWrErr = false

/-- The host's `reset` in any state puts every field back in one step and leaves LOAD (R104). That a step
takes one host move, and that the latches return to 0, are the model's choices (log entries 2 and 5). -/
def Obligations.HostResetRestoresEveryField : Prop :=
  ∀ (m : OpcodeMap) (s : State) (rest : List HostMove), s.inputs = .reset :: rest →
    stepWith m s = .next { State.reset with inputs := rest }

/-- The invariant holds right after reset. -/
def Obligations.ResetMeetsTheInvariant : Prop := State.reset.Inv

/-- The invariant: canonical memory within 256 cells (R10), `pc` at most 256 (R15, R73), `sp` at its reset
value (R17), exclusive flags (R18), a fault record exactly in FAULTED (R23), an untouched machine in LOAD
(R67). From every state that meets it, whatever step comes leads to a state that meets it. -/
def Obligations.EveryStepKeepsTheInvariant : Prop :=
  ∀ (m : OpcodeMap) (s t : State), s.Inv → stepWith m s = .next t → t.Inv

/-- Whatever the host drives from reset on, every state a run reaches meets the invariant. -/
def Obligations.EveryReachableStateMeetsTheInvariant : Prop :=
  ∀ (m : OpcodeMap) (moves : List HostMove) (k : Nat) (t : State),
    (coreWith m).run k (setInputs moves State.reset) = .next t → t.Inv

/-- At reset there is no end to explain: no fault record and no HALTED. -/
def Obligations.ResetShowsNoEnd : Prop := ∀ m : OpcodeMap, State.reset.EndShown m

/-- The end of a run is shown by the end state (R83, R89 to R93): AddressOutOfRange records 256 with `pc` at
254 to 256, UnsupportedOperation records the byte at `pc`, which is no opcode, InvalidRegister records an
index of 8 or more that is an operand of the instruction at `pc`, and HALTED has HLT's opcode just below
`pc`. Every step keeps this. -/
def Obligations.EveryStepKeepsTheEndShown : Prop :=
  ∀ (m : OpcodeMap) (s t : State), s.Inv → s.EndShown m → stepWith m s = .next t → t.EndShown m

/-- No step stops the model: from every state, under every map, a step answers a next state. Every fatal
condition is a next state in FAULTED (R93). -/
def Obligations.EveryStepAnswersANextState : Prop :=
  ∀ (m : OpcodeMap) (s : State), ∃ t, stepWith m s = .next t

/-- `run_state` changes only as R20 says. -/
def Obligations.RunStateChangesOnlyAsListed : Prop :=
  ∀ (m : OpcodeMap) (s t : State), stepWith m s = .next t →
    t.runState = s.runState ∨
    (s.inputs.head? = some .reset ∧ t.runState = .load) ∨
    (s.inputs.head? = some .start ∧ s.runState = .load ∧ t.runState = .running) ∨
    (s.coreHasTurn ∧ s.runState = .running ∧ t.runState = .halted ∧ s.decodeAtPc m = .ok .hlt) ∨
    (s.coreHasTurn ∧ s.runState = .running ∧ t.runState = .faulted ∧ t.fault.isSome = true)

/-- HALTED and FAULTED are terminal (R74, R75): while the host does not reset, no step of any number changes
anything; only the host's moves, which have no effect, are used up. -/
def Obligations.EndedRunStaysEndedUntilReset : Prop :=
  ∀ (m : OpcodeMap) (k : Nat) (s : State), s.runState = .halted ∨ s.runState = .faulted →
    HostMove.reset ∉ s.inputs.take k →
    (coreWith m).run k s = .next { s with inputs := s.inputs.drop k }

/-- No cycle runs outside RUNNING (R67); that the step then answers the same state is log entry 4. -/
def Obligations.NoCycleRunsOutsideRunning : Prop :=
  ∀ (m : OpcodeMap) (s : State), s.runState ≠ .running → s.inputs = [] → stepWith m s = .next s

/-- A jump to itself runs forever (R78, R86): after any number of steps the run has not ended and `pc`
stands at the jump. -/
def Obligations.JumpToItselfNeverEnds : Prop :=
  ∀ (m : OpcodeMap) (s : State) (r : Byte), s.runState = .running → s.inputs = [] → s.pc ≤ 253 →
    s.decodeAtPc m = .ok (.jmp r) → readReg r s = .ok (BitVec.ofNat 8 s.pc) →
    ∀ k, ∃ t, (coreWith m).run k s = .next t ∧ t.runState = .running ∧ t.pc = s.pc ∧ t.out = s.out

/-! ### Memory and the register file -/

/-- Two memories in canonical form that read alike at every address are equal. -/
def Obligations.MemoriesThatReadAlikeAreEqual : Prop :=
  ∀ p q : Memory, p.wf → q.wf → (∀ a, memRead p a = memRead q a) → p = q

/-- The memory contract (R30). -/
def Obligations.MemoryReadAndWriteContract : Prop :=
  ∀ (mem : Memory) (a : Nat) (v : Byte), mem.wf →
    (a < 256 → memRead mem a = .ok (cellAt mem a) ∧
      ∃ mem', memWrite mem a v = .ok mem' ∧ memRead mem' a = .ok v ∧
        ∀ b, b ≠ a → memRead mem' b = memRead mem b) ∧
    (256 ≤ a → memRead mem a = .error (.addressOutOfRange a) ∧
      memWrite mem a v = .error (.addressOutOfRange a))

/-- A read returns the byte of the latest write to its address, or 0 if there was none since reset (R40). -/
def Obligations.ReadReturnsTheLatestWrite : Prop :=
  ∀ writes : List (Nat × Byte), (∀ w ∈ writes, w.1 < 256) → ∀ a < 256,
    memRead (writes.foldl (fun mem w => putCell mem w.1 w.2) State.reset.mem) a =
      .ok (((writes.reverse.find? fun w => w.1 == a).map Prod.snd).getD 0#8)

/-- The register index is the whole operand byte, valid below 8 and never masked (R14); a write changes its
own register and nothing else. -/
def Obligations.RegisterIndexIsTheWholeByte : Prop :=
  ∀ (i v : Byte) (s : State),
    (∀ h : i.toNat < 8, readReg i s = .ok s.x[i.toNat] ∧
      ∃ t, writeReg i v s = .ok t ∧ readReg i t = .ok v ∧
        (∀ j, j ≠ i → readReg j t = readReg j s) ∧ t = { s with x := t.x }) ∧
    (8 ≤ i.toNat → readReg i s = .error (.invalidRegister i) ∧
      writeReg i v s = .error (.invalidRegister i))

/-! ### The ALU -/

/-- The ALU's ADD (R62) at op select 0 (D26): the sum modulo 256 in `x[a]`, no flag, both index faults. -/
def Obligations.AluAddWrapsModulo256 : Prop :=
  (∀ (a b : Byte) (s : State),
    (∀ (ha : a.toNat < 8) (hb : b.toNat < 8), ∃ r : Byte,
      r.toNat = (s.x[a.toNat].toNat + s.x[b.toNat].toNat) % 256 ∧
      alu 0#2 a b s = .ok { s with x := s.x.set a.toNat r ha }) ∧
    (8 ≤ a.toNat → alu 0#2 a b s = .error (.invalidRegister a)) ∧
    (a.toNat < 8 → 8 ≤ b.toNat → alu 0#2 a b s = .error (.invalidRegister b))) ∧
  aluAdd 250#8 10#8 = 4#8

/-- The ALU's MUL (R63): the low 8 bits of the product in `x[a]`, no flag, both index faults, its corner
cases and its worked example. -/
def Obligations.AluMulKeepsTheLowByte : Prop :=
  (∀ (a b : Byte) (s : State),
    (∀ (ha : a.toNat < 8) (hb : b.toNat < 8), ∃ r : Byte,
      r.toNat = (s.x[a.toNat].toNat * s.x[b.toNat].toNat) % 256 ∧
      r = aluMul s.x[a.toNat] s.x[b.toNat] ∧
      alu (aluSelect .mul) a b s = .ok { s with x := s.x.set a.toNat r ha }) ∧
    (8 ≤ a.toNat → alu (aluSelect .mul) a b s = .error (.invalidRegister a)) ∧
    (a.toNat < 8 → 8 ≤ b.toNat → alu (aluSelect .mul) a b s = .error (.invalidRegister b))) ∧
  (∀ v w : Byte, aluMul v w = aluMul w v ∧ aluMul 0#8 v = 0#8 ∧ aluMul v 0#8 = 0#8) ∧
  aluMul 16#8 16#8 = 0#8 ∧ aluMul 255#8 255#8 = 1#8 ∧ aluMul 5#8 3#8 = 15#8

/-- The ALU's CMP (R64): the three flags by the unsigned comparison, all three each time, no register
written, both index faults (with which CMP leaves the flags), its corner cases and its worked example. -/
def Obligations.AluCmpSetsExactlyOneFlag : Prop :=
  (∀ (a b : Byte) (s : State),
    (∀ (ha : a.toNat < 8) (hb : b.toNat < 8), ∃ f : Flags,
      alu (aluSelect .cmp) a b s = .ok { s with flags := f } ∧
      f = aluCmp s.x[a.toNat] s.x[b.toNat] ∧
      (f.e = true ↔ s.x[a.toNat].toNat = s.x[b.toNat].toNat) ∧
      (f.g = true ↔ s.x[b.toNat].toNat < s.x[a.toNat].toNat) ∧
      (f.l = true ↔ s.x[a.toNat].toNat < s.x[b.toNat].toNat)) ∧
    (8 ≤ a.toNat → alu (aluSelect .cmp) a b s = .error (.invalidRegister a)) ∧
    (a.toNat < 8 → 8 ≤ b.toNat → alu (aluSelect .cmp) a b s = .error (.invalidRegister b)) ∧
    (8 ≤ a.toNat ∨ 8 ≤ b.toNat → ∃ t, exec (.cmp a b) s = .next t ∧ t.flags = s.flags)) ∧
  (∀ v : Byte, aluCmp v v = { e := true, g := false, l := false }) ∧
  aluCmp 0#8 255#8 = { e := false, g := false, l := true } ∧
  aluCmp 255#8 0#8 = { e := false, g := true, l := false } ∧
  aluCmp 4#8 5#8 = { e := false, g := false, l := true }

/-- The op select outside {ADD, MUL, CMP} is unsupported whatever the indices (R65); the encoding is D26,
and that no index is checked first is log entry 30. -/
def Obligations.AluRefusesTheFourthSelect : Prop :=
  ∀ (sel : BitVec 2) (a b : Byte) (s : State),
    (∀ op, sel ≠ aluSelect op) ↔ alu sel a b s = .error (.unsupportedOperation 3#8)

/-! ### Encoding -/

/-- Decoding an encoded instruction gives it back under every well-formed map, with every operand value, and
whatever bytes follow it (R46 to R51, R56). -/
def Obligations.DecodeOfEncodeIsTheInstruction : Prop :=
  ∀ m : OpcodeMap, m.wf → ∀ (i : Instr) (u v : Byte), decodeBytes m (encode m i ++ [u, v]) = .ok i

/-- What decodes is what encodes: the first bytes, as many as the instruction is long, are its encoding. -/
def Obligations.EncodeOfDecodeIsTheBytes : Prop :=
  ∀ (m : OpcodeMap) (ir opa opb : Byte) (i : Instr), decode m ir opa opb = .ok i →
    [ir, opa, opb].take i.length = encode m i

/-- The decoder rejects exactly the opcode bytes outside the map, by name (R51, R54). -/
def Obligations.DecoderRejectsExactlyTheOtherOpcodes : Prop :=
  ∀ (m : OpcodeMap) (ir opa opb : Byte),
    decode m ir opa opb = .error (.unsupportedOpcode ir) ↔ ir ∉ m.values

/-- Every byte outside the map of a well-formed map is illegal, and there are 248 of them (R54). -/
def Obligations.TwoHundredFortyEightOpcodesAreIllegal : Prop :=
  ∀ m : OpcodeMap, m.wf → ∀ opa opb : Byte,
    ((List.range 256).filter fun n => !(decode m (BitVec.ofNat 8 n) opa opb).toBool).length = 248

/-- A byte the instruction does not use changes nothing that is decoded (R56): the third byte for the
formats F1 and F2, the second as well for F1. -/
def Obligations.UnusedOperandBytesDoNotMatter : Prop :=
  ∀ (m : OpcodeMap) (ir opa opb opa' opb' : Byte) (i : Instr), decode m ir opa opb = .ok i →
    (i.length ≤ 2 → decode m ir opa opb' = .ok i) ∧ (i.length = 1 → decode m ir opa' opb' = .ok i)

/-- Words of R58 under the default map, one for each format and family. The five opcodes not in the source
are the spec's default (D7, log entry 11). -/
def Obligations.DefaultMapReadsTheTablesWords : Prop :=
  decodeBytes opcodeMap [0x82#8, 0x00#8, 0x08#8] = .ok (.ldi 0#8 8#8) ∧
  decodeBytes opcodeMap [0x47#8, 0x05#8, 0xFF#8] = .ok (.prn 5#8) ∧
  decodeBytes opcodeMap [0x01#8, 0xFF#8, 0xFF#8] = .ok .hlt ∧
  decodeBytes opcodeMap [0xA2#8, 0x02#8, 0x03#8] = .ok (.mul 2#8 3#8) ∧
  decodeBytes opcodeMap [0xA7#8, 0x00#8, 0x08#8] = .ok (.cmp 0#8 8#8) ∧
  decodeBytes opcodeMap [0x54#8, 0x01#8, 0x00#8] = .ok (.jmp 1#8) ∧
  decodeBytes opcodeMap [0x55#8, 0x03#8, 0x00#8] = .ok (.jeq 3#8) ∧
  decodeBytes opcodeMap [0x56#8, 0xFF#8, 0x00#8] = .ok (.jne 255#8) ∧
  decodeBytes opcodeMap [0xA0#8, 0x00#8, 0x01#8] = .error (.noInstruction (.unsupportedOpcode 0xA0#8))

/-! ### The cycle -/

/-- A step runs the decoded instruction (R71): in RUNNING, with the CORE's turn, a step is the execute phase
of what the three bytes at `pc` decode to, on the state with the latches filled and the host's idle move,
if there is one, used up. `step` is that of the default map. -/
def Obligations.StepRunsTheDecodedInstruction : Prop :=
  (∀ (m : OpcodeMap) (s : State) (i : Instr), s.runState = .running → s.coreHasTurn → s.pc ≤ 253 →
    s.decodeAtPc m = .ok i →
    stepWith m s = exec i { s with ir := cellAt s.mem s.pc, opa := cellAt s.mem (s.pc + 1),
                                   opb := cellAt s.mem (s.pc + 2), inputs := s.inputs.tail }) ∧
  ∀ s : State, step s = stepWith opcodeMap s

/-- The fetch phase (R68, R69): the opcode read, then both operand reads for every opcode, each raising
AddressOutOfRange at 256 or above, in which case nothing is decoded and only the latches already read
have changed. -/
def Obligations.FetchReadsThreeBytesOrFaults : Prop :=
  ∀ (m : OpcodeMap) (s : State), s.runState = .running → s.inputs = [] →
    (256 ≤ s.pc → stepWith m s =
      .next { s with fault := some (.addressOutOfRange s.pc), runState := .faulted }) ∧
    (s.pc + 1 = 256 → stepWith m s =
      .next { s with ir := cellAt s.mem s.pc, fault := some (.addressOutOfRange (s.pc + 1)),
                     runState := .faulted }) ∧
    (s.pc + 2 = 256 → stepWith m s =
      .next { s with ir := cellAt s.mem s.pc, opa := cellAt s.mem (s.pc + 1),
                     fault := some (.addressOutOfRange (s.pc + 2)), runState := .faulted }) ∧
    (s.pc + 2 < 256 → fetch s =
      ({ s with ir := cellAt s.mem s.pc, opa := cellAt s.mem (s.pc + 1),
                opb := cellAt s.mem (s.pc + 2) }, none))

/-- Decode and dispatch (R70): a matching opcode selects its execute rule with the two operand bytes; an
opcode that matches none raises UnsupportedOperation with it and executes nothing. -/
def Obligations.DispatchSelectsByOpcodeOrFaults : Prop :=
  ∀ (m : OpcodeMap) (s : State), m.wf → s.runState = .running → s.inputs = [] → s.pc ≤ 253 →
    ∀ t, t = { s with ir := cellAt s.mem s.pc, opa := cellAt s.mem (s.pc + 1),
                      opb := cellAt s.mem (s.pc + 2) } →
    (t.ir = m.ldi → stepWith m s = exec (.ldi t.opa t.opb) t) ∧
    (t.ir = m.prn → stepWith m s = exec (.prn t.opa) t) ∧
    (t.ir = m.hlt → stepWith m s = exec .hlt t) ∧
    (t.ir = m.mul → stepWith m s = exec (.mul t.opa t.opb) t) ∧
    (t.ir = m.cmp → stepWith m s = exec (.cmp t.opa t.opb) t) ∧
    (t.ir = m.jmp → stepWith m s = exec (.jmp t.opa) t) ∧
    (t.ir = m.jeq → stepWith m s = exec (.jeq t.opa) t) ∧
    (t.ir = m.jne → stepWith m s = exec (.jne t.opa) t) ∧
    (t.ir ∉ m.values → stepWith m s =
      .next { t with fault := some (.unsupportedOperation t.ir), runState := .faulted })

/-- Fault entry (R93, D9): a cycle that ends in FAULTED has written the fault record and nothing else but
the latches; `pc` keeps the address of the opcode, and no register, flag, output or memory byte changed. -/
def Obligations.FaultingCycleWritesOnlyTheRecord : Prop :=
  ∀ (m : OpcodeMap) (s t : State), s.runState = .running → s.coreHasTurn → stepWith m s = .next t →
    t.runState = .faulted → ∃ f, t = { s with fault := some f, runState := .faulted, ir := t.ir,
                                              opa := t.opa, opb := t.opb, inputs := s.inputs.tail }

/-- The first fault met is the one reported (R97, D11): an address above memory before the opcode, the
opcode before any register, `operand_a` before `operand_b`. -/
def Obligations.FirstFaultIsReported : Prop :=
  ∀ (m : OpcodeMap) (s : State), s.runState = .running → s.inputs = [] → s.fault = none →
    ∃ t, stepWith m s = .next t ∧
      (254 ≤ s.pc → t.fault = some (.addressOutOfRange (max 256 s.pc))) ∧
      (s.pc ≤ 253 → cellAt s.mem s.pc ∉ m.values →
        t.fault = some (.unsupportedOperation (cellAt s.mem s.pc))) ∧
      (∀ a b, s.pc ≤ 253 → s.decodeAtPc m = .ok (.mul a b) ∨ s.decodeAtPc m = .ok (.cmp a b) →
        t.fault = if 8 ≤ a.toNat then some (.invalidRegister a)
                  else if 8 ≤ b.toNat then some (.invalidRegister b) else none)

/-! ### The instructions -/

/-- LDI, whole (R81): its encoding under every well-formed map, its effect, its one fault, what happens
at the top of memory, and its worked example. -/
def Obligations.LdiLoadsTheImmediate : Prop :=
  (∀ m : OpcodeMap, m.wf → ∀ ra imm : Byte, encode m (.ldi ra imm) = [0x82#8, ra, imm] ∧
    decode m 0x82#8 ra imm = .ok (.ldi ra imm)) ∧
  (∀ (ra imm : Byte) (s : State),
    (∀ h : ra.toNat < 8, exec (.ldi ra imm) s =
      .next { s with x := s.x.set ra.toNat imm h, pc := s.pc + 3 }) ∧
    (8 ≤ ra.toNat → exec (.ldi ra imm) s =
      .next { s with fault := some (.invalidRegister ra), runState := .faulted })) ∧
  ∀ (m : OpcodeMap) (s : State), m.wf → s.runState = .running → s.inputs = [] →
    (s.pc = 253 → cellAt s.mem 253 = 0x82#8 → (cellAt s.mem 254).toNat < 8 →
      ∃ t u, stepWith m s = .next t ∧ t.pc = 256 ∧ t.runState = .running ∧
        readReg (cellAt s.mem 254) t = .ok (cellAt s.mem 255) ∧
        stepWith m t = .next u ∧ u.fault = some (.addressOutOfRange 256) ∧ u.runState = .faulted) ∧
    (254 ≤ s.pc → s.pc ≤ 255 → ∃ t, stepWith m s = .next t ∧ t.runState = .faulted ∧
      t.fault = some (.addressOutOfRange 256) ∧ t.x = s.x ∧ t.pc = s.pc) ∧
    (s.pc = 0 → cellAt s.mem 0 = 0x82#8 → cellAt s.mem 1 = 0#8 → cellAt s.mem 2 = 8#8 →
      ∃ t, stepWith m s = .next t ∧ readReg 0#8 t = .ok 8#8 ∧ t.pc = 3)

/-- PRN, whole (R82): its encoding, exactly one event with the register's value, its one fault, its
worked example, and the host's text: decimal digits and a line terminator (which byte ends the line is D13,
log entry 23, and is not stated here). -/
def Obligations.PrnEmitsTheRegister : Prop :=
  (∀ m : OpcodeMap, m.wf → ∀ ra u : Byte, encode m (.prn ra) = [0x47#8, ra] ∧
    decode m 0x47#8 ra u = .ok (.prn ra)) ∧
  (∀ (ra : Byte) (s : State),
    (∀ h : ra.toNat < 8, ∃ t, exec (.prn ra) s = .next t ∧
      t = { s with out := s.out ++ [s.x[ra.toNat]], pc := s.pc + 2 } ∧
      outEvents s t = [s.x[ra.toNat]]) ∧
    (8 ≤ ra.toNat → exec (.prn ra) s =
      .next { s with fault := some (.invalidRegister ra), runState := .faulted })) ∧
  (∀ (i : Instr) (s t : State), exec i s = .next t → t.out ≠ s.out → ∃ ra, i = .prn ra) ∧
  (∀ (m : OpcodeMap) (s : State), m.wf → s.runState = .running → s.inputs = [] → s.pc = 3 →
    cellAt s.mem 3 = 0x47#8 → cellAt s.mem 4 = 0#8 → readReg 0#8 s = .ok 8#8 →
    ∃ t, stepWith m s = .next t ∧ outEvents s t = [8#8] ∧ t.pc = 5) ∧
  ∃ eol : Byte, renderByte 8#8 = [0x38#8, eol] ∧
    ∀ v : Byte, ∃ ds : List Nat, renderByte v = ds.map (fun d => BitVec.ofNat 8 (0x30 + d)) ++ [eol] ∧
      (∀ d ∈ ds, d < 10) ∧ ds.foldl (fun n d => 10 * n + d) 0 = v.toNat

/-- HLT, whole (R83): its encoding, its effect, that it never faults in its execute phase, and that at 254
or 255 it does not run. -/
def Obligations.HltHalts : Prop :=
  (∀ m : OpcodeMap, m.wf → ∀ u v : Byte, encode m .hlt = [0x01#8] ∧ decode m 0x01#8 u v = .ok .hlt ∧
    decode m 0x00#8 u v ≠ .ok .hlt) ∧
  (∀ s : State, exec .hlt s = .next { s with runState := .halted, pc := s.pc + 1 }) ∧
  ∀ (m : OpcodeMap) (s : State), m.wf → s.runState = .running → s.inputs = [] →
    (s.pc ≤ 253 → cellAt s.mem s.pc = 0x01#8 → ∃ t, stepWith m s = .next t ∧ t.runState = .halted ∧
      t.pc = s.pc + 1 ∧ ∀ k, (coreWith m).run k t = .next t) ∧
    (254 ≤ s.pc → s.pc ≤ 255 → ∃ t, stepWith m s = .next t ∧ t.runState = .faulted ∧
      t.fault = some (.addressOutOfRange 256))

/-- MUL (the pseudocode and the faults of R84): the product modulo 256 in the first register, flags kept,
`pc + 3`; a fault on either index, the first before the second. -/
def Obligations.MulMultipliesModulo256 : Prop :=
  ∀ (ra rb : Byte) (s : State),
    (∀ (ha : ra.toNat < 8) (hb : rb.toNat < 8), ∃ r : Byte,
      r.toNat = (s.x[ra.toNat].toNat * s.x[rb.toNat].toNat) % 256 ∧
      exec (.mul ra rb) s = .next { s with x := s.x.set ra.toNat r ha, pc := s.pc + 3 }) ∧
    (8 ≤ ra.toNat → exec (.mul ra rb) s =
      .next { s with fault := some (.invalidRegister ra), runState := .faulted }) ∧
    (ra.toNat < 8 → 8 ≤ rb.toNat → exec (.mul ra rb) s =
      .next { s with fault := some (.invalidRegister rb), runState := .faulted })

/-- CMP (the pseudocode and the faults of R85): the three flags by the unsigned comparison, exactly one of
them set, no register written, `pc + 3`; a fault on either index leaves the flags. -/
def Obligations.CmpComparesUnsigned : Prop :=
  ∀ (ra rb : Byte) (s : State),
    (∀ (ha : ra.toNat < 8) (hb : rb.toNat < 8), exec (.cmp ra rb) s =
      .next { s with flags := { e := decide (s.x[ra.toNat].toNat = s.x[rb.toNat].toNat),
                                g := decide (s.x[ra.toNat].toNat > s.x[rb.toNat].toNat),
                                l := decide (s.x[ra.toNat].toNat < s.x[rb.toNat].toNat) },
                     pc := s.pc + 3 }) ∧
    (8 ≤ ra.toNat → exec (.cmp ra rb) s =
      .next { s with fault := some (.invalidRegister ra), runState := .faulted }) ∧
    (ra.toNat < 8 → 8 ≤ rb.toNat → exec (.cmp ra rb) s =
      .next { s with fault := some (.invalidRegister rb), runState := .faulted })

/-- JMP (the pseudocode and the fault of R86): `pc` becomes the register's value and nothing is added. -/
def Obligations.JmpReplacesThePc : Prop :=
  ∀ (ra : Byte) (s : State),
    (∀ h : ra.toNat < 8, exec (.jmp ra) s = .next { s with pc := s.x[ra.toNat].toNat }) ∧
    (8 ≤ ra.toNat → exec (.jmp ra) s =
      .next { s with fault := some (.invalidRegister ra), runState := .faulted })

/-- JEQ (the pseudocode and the fault of R87): taken when E is set; not taken, it reads no register, so an
index of 8 or more raises nothing (D12). -/
def Obligations.JeqJumpsWhenEqual : Prop :=
  ∀ (ra : Byte) (s : State),
    (s.flags.e = true → ∀ h : ra.toNat < 8,
      exec (.jeq ra) s = .next { s with pc := s.x[ra.toNat].toNat }) ∧
    (s.flags.e = true → 8 ≤ ra.toNat → exec (.jeq ra) s =
      .next { s with fault := some (.invalidRegister ra), runState := .faulted }) ∧
    (s.flags.e = false → exec (.jeq ra) s = .next { s with pc := s.pc + 2 })

/-- JNE (the pseudocode and the fault of R88): taken when E is clear, whatever G and L; not taken, it reads
no register (D12). -/
def Obligations.JneJumpsWhenNotEqual : Prop :=
  ∀ (ra : Byte) (s : State),
    (s.flags.e = false → ∀ h : ra.toNat < 8,
      exec (.jne ra) s = .next { s with pc := s.x[ra.toNat].toNat }) ∧
    (s.flags.e = false → 8 ≤ ra.toNat → exec (.jne ra) s =
      .next { s with fault := some (.invalidRegister ra), runState := .faulted }) ∧
    (s.flags.e = true → exec (.jne ra) s = .next { s with pc := s.pc + 2 })

/-- Where InvalidRegister is raised, instruction by instruction (R91, R84, R85): from a state with no fault
record, exactly the listed accesses leave one. That MUL and CMP record `operand_a` when both indices are
invalid is R97's order, the spec's own decision D11 (log entry 21). -/
def Obligations.InvalidRegisterIsRaisedExactlyWhereListed : Prop :=
  (∀ (i v : Byte) (s : State), 8 ≤ i.toNat → readReg i s = .error (.invalidRegister i) ∧
    writeReg i v s = .error (.invalidRegister i)) ∧
  ∀ (s : State) (a b : Byte), s.fault = none →
    (∃ t, exec (.ldi a b) s = .next t ∧
      t.fault = if 8 ≤ a.toNat then some (.invalidRegister a) else none) ∧
    (∃ t, exec (.prn a) s = .next t ∧
      t.fault = if 8 ≤ a.toNat then some (.invalidRegister a) else none) ∧
    (∃ t, exec .hlt s = .next t ∧ t.fault = none) ∧
    (∃ t, exec (.mul a b) s = .next t ∧
      t.fault = if 8 ≤ a.toNat then some (.invalidRegister a)
                else if 8 ≤ b.toNat then some (.invalidRegister b) else none) ∧
    (∃ t, exec (.cmp a b) s = .next t ∧
      t.fault = if 8 ≤ a.toNat then some (.invalidRegister a)
                else if 8 ≤ b.toNat then some (.invalidRegister b) else none) ∧
    (∃ t, exec (.jmp a) s = .next t ∧
      t.fault = if 8 ≤ a.toNat then some (.invalidRegister a) else none) ∧
    (∃ t, exec (.jeq a) s = .next t ∧
      t.fault = if s.flags.e = true ∧ 8 ≤ a.toNat then some (.invalidRegister a) else none) ∧
    (∃ t, exec (.jne a) s = .next t ∧
      t.fault = if s.flags.e = false ∧ 8 ≤ a.toNat then some (.invalidRegister a) else none)

/-! ### Frames -/

/-- What LDI and MUL leave unchanged: every register but the destination, every flag, `sp`, the output log,
every byte of memory, the latches, `host_wr_err` and the host's moves; the run state and the fault record
too, unless the index faulted. -/
def Obligations.LdiAndMulWriteOneRegister : Prop :=
  ∀ (ra b : Byte) (s t : State), exec (.ldi ra b) s = .next t ∨ exec (.mul ra b) s = .next t →
    (∀ j, j ≠ ra → readReg j t = readReg j s) ∧ t.flags = s.flags ∧ t.sp = s.sp ∧ t.out = s.out ∧
    (∀ a, memRead t.mem a = memRead s.mem a) ∧ t.ir = s.ir ∧ t.opa = s.opa ∧ t.opb = s.opb ∧
    t.hostWrErr = s.hostWrErr ∧ t.inputs = s.inputs ∧
    ((t.runState = s.runState ∧ t.fault = s.fault) ∨
      ∃ r, (r = ra ∨ (r = b ∧ exec (.mul ra b) s = .next t)) ∧ 8 ≤ r.toNat ∧
        t = { s with fault := some (.invalidRegister r), runState := .faulted })

/-- What CMP leaves unchanged: everything but the three flags and `pc`, unless an index faulted. -/
def Obligations.CmpWritesOnlyFlags : Prop :=
  ∀ (ra rb : Byte) (s t : State), exec (.cmp ra rb) s = .next t →
    (∀ j, readReg j t = readReg j s) ∧ t.sp = s.sp ∧ t.out = s.out ∧
    (∀ a, memRead t.mem a = memRead s.mem a) ∧ t.ir = s.ir ∧ t.opa = s.opa ∧ t.opb = s.opb ∧
    t.hostWrErr = s.hostWrErr ∧ t.inputs = s.inputs ∧
    ((t.runState = s.runState ∧ t.fault = s.fault) ∨
      ∃ r, (r = ra ∨ r = rb) ∧ 8 ≤ r.toNat ∧
        t = { s with fault := some (.invalidRegister r), runState := .faulted })

/-- What JMP, JEQ and JNE leave unchanged: everything but `pc`, unless the index faulted. -/
def Obligations.JumpsWriteOnlyThePc : Prop :=
  ∀ (ra : Byte) (s t : State),
    exec (.jmp ra) s = .next t ∨ exec (.jeq ra) s = .next t ∨ exec (.jne ra) s = .next t →
    (∀ j, readReg j t = readReg j s) ∧ t.flags = s.flags ∧ t.sp = s.sp ∧ t.out = s.out ∧
    (∀ a, memRead t.mem a = memRead s.mem a) ∧ t.ir = s.ir ∧ t.opa = s.opa ∧ t.opb = s.opb ∧
    t.hostWrErr = s.hostWrErr ∧ t.inputs = s.inputs ∧
    ((t.runState = s.runState ∧ t.fault = s.fault) ∨
      (8 ≤ ra.toNat ∧ t = { s with fault := some (.invalidRegister ra), runState := .faulted }))

/-- What PRN and HLT leave unchanged: every register, every flag, `sp`, every byte of memory, the latches,
`host_wr_err` and the host's moves; HLT the output log and the fault record too, PRN all it has logged
before, and the run state unless the index faulted. -/
def Obligations.PrnAndHltWriteNoRegister : Prop :=
  ∀ (ra : Byte) (s t : State), exec (.prn ra) s = .next t ∨ exec .hlt s = .next t →
    (∀ j, readReg j t = readReg j s) ∧ t.flags = s.flags ∧ t.sp = s.sp ∧
    (∀ a, memRead t.mem a = memRead s.mem a) ∧ t.ir = s.ir ∧ t.opa = s.opa ∧ t.opb = s.opb ∧
    t.hostWrErr = s.hostWrErr ∧ t.inputs = s.inputs ∧ (∃ evs, t.out = s.out ++ evs) ∧
    (exec .hlt s = .next t → t.out = s.out ∧ t.fault = s.fault) ∧
    (exec (.prn ra) s = .next t → (t.runState = s.runState ∧ t.fault = s.fault) ∨
      (8 ≤ ra.toNat ∧ t = { s with fault := some (.invalidRegister ra), runState := .faulted }))

/-! ### Who writes what, and who reads what -/

/-- Only CMP writes the flags (R18): a step that changes them was the host's reset or a cycle of CMP. -/
def Obligations.OnlyCmpWritesTheFlags : Prop :=
  ∀ (m : OpcodeMap) (s t : State), stepWith m s = .next t → t.flags ≠ s.flags →
    s.inputs.head? = some .reset ∨
    (s.coreHasTurn ∧ s.runState = .running ∧ s.pc ≤ 253 ∧
      ∃ a b, s.decodeAtPc m = .ok (.cmp a b) ∧ a.toNat < 8 ∧ b.toNat < 8)

/-- From the first CMP on, exactly one flag is set (R18, C4): a completed CMP sets exactly one, and every
step that is not the host's reset keeps it so. -/
def Obligations.ExactlyOneFlagFromTheFirstCmpOn : Prop :=
  (∀ (a b : Byte) (s t : State), a.toNat < 8 → b.toNat < 8 → exec (.cmp a b) s = .next t →
    t.flags.exclusive = true ∧ (t.flags.e || t.flags.g || t.flags.l) = true) ∧
  ∀ (m : OpcodeMap) (s t : State), stepWith m s = .next t → s.inputs.head? ≠ some .reset →
    s.flags.exclusive = true → (s.flags.e || s.flags.g || s.flags.l) = true →
    t.flags.exclusive = true ∧ (t.flags.e || t.flags.g || t.flags.l) = true

/-- The CORE never writes memory (R36): no instruction does, and a step that changes memory is the host's
write, admitted in LOAD, or the host's reset. -/
def Obligations.OnlyTheHostWritesMemory : Prop :=
  (∀ (i : Instr) (s t : State), exec i s = .next t → t.mem = s.mem) ∧
  ∀ (m : OpcodeMap) (s t : State), stepWith m s = .next t → t.mem ≠ s.mem →
    s.inputs.head? = some .reset ∨
    (s.runState = .load ∧ ∃ a v, s.inputs.head? = some (.write a v) ∧ a.toNat < 256)

/-- `pc` after a step (R16): a cycle that does not fault writes it once, with `pc` plus the length or with
the register a jump names; every other step but the host's reset leaves it. -/
def Obligations.PcAdvancesOrJumps : Prop :=
  ∀ (m : OpcodeMap) (s t : State), stepWith m s = .next t →
    (s.coreHasTurn → s.runState = .running → t.runState ≠ .faulted →
      ∃ i, s.decodeAtPc m = .ok i ∧
        ((t.pc = s.pc + i.length ∧ ∀ r, i ≠ .jmp r) ∨
          ∃ r v, (i = .jmp r ∨ i = .jeq r ∨ i = .jne r) ∧ readReg r s = .ok v ∧ t.pc = v.toNat)) ∧
    (s.inputs.head? ≠ some .reset → ¬ (s.coreHasTurn ∧ s.runState = .running) ∨ t.runState = .faulted →
      t.pc = s.pc)

/-- The output log (R22, R99): only a completed PRN appends to it, one byte at a time, and only the host's
reset removes from it. -/
def Obligations.OnlyPrnAppendsToTheLog : Prop :=
  ∀ (m : OpcodeMap) (s t : State), stepWith m s = .next t → s.inputs.head? ≠ some .reset →
    t.out = s.out ++ outEvents s t ∧
    (outEvents s t = [] ∨
      (s.coreHasTurn ∧ s.runState = .running ∧ ∃ r v, s.decodeAtPc m = .ok (.prn r) ∧
        readReg r s = .ok v ∧ outEvents s t = [v]))

/-- No instruction reads or writes `sp` (R17): with another `sp` the step does the same and keeps that `sp`. -/
def Obligations.StackPointerIsNeverRead : Prop :=
  ∀ (m : OpcodeMap) (s t : State) (v : Byte), s.inputs.head? ≠ some .reset → stepWith m s = .next t →
    t.sp = s.sp ∧ stepWith m { s with sp := v } = .next { t with sp := v }

/-- The fetch latches carry nothing from one instruction to the next (R21): with other latches the step
does the same, but for the latches. -/
def Obligations.LatchesCarryNothing : Prop :=
  ∀ (m : OpcodeMap) (s t : State) (a b c : Byte), stepWith m s = .next t →
    ∃ u, stepWith m { s with ir := a, opa := b, opb := c } = .next u ∧
      { u with ir := 0#8, opa := 0#8, opb := 0#8 } = { t with ir := 0#8, opa := 0#8, opb := 0#8 }

/-- No instruction reads G or L (R18): with other G and L the step does the same, but for G and L. -/
def Obligations.GreaterAndLessAreNeverRead : Prop :=
  ∀ (m : OpcodeMap) (s t : State) (g l : Bool), stepWith m s = .next t →
    ∃ u, stepWith m { s with flags := { s.flags with g := g, l := l } } = .next u ∧
      { u with flags := t.flags } = t ∧ u.flags.e = t.flags.e

/-! ### The host -/

/-- The load port (R37 to R39, D14, D15): admitted in LOAD; below 256 the byte is written and no other; at
256 or above nothing but `host_wr_err`; refused outside LOAD. That a write in range clears `host_wr_err`
is log entry 7, and that a write is a step of its own log entry 2. -/
def Obligations.LoadPortWritesInLoadOnly : Prop :=
  ∀ (m : OpcodeMap) (s : State) (a : BitVec 9) (v : Byte) (rest : List HostMove), s.mem.wf →
    s.inputs = .write a v :: rest →
    (s.runState = .load → a.toNat < 256 → ∃ mem, memRead mem a.toNat = .ok v ∧
      (∀ b, b ≠ a.toNat → memRead mem b = memRead s.mem b) ∧
      stepWith m s = .next { s with mem := mem, hostWrErr := false, inputs := rest }) ∧
    (s.runState = .load → 256 ≤ a.toNat →
      stepWith m s = .next { s with hostWrErr := true, inputs := rest }) ∧
    (s.runState ≠ .load → stepWith m s = .next { s with inputs := rest })

/-- `start` takes LOAD to RUNNING and does nothing elsewhere (R20, D18); the host's writes of `x`, `pc`,
`sp` and the flags are refused in every run state (R100). That such a move, with or without effect, is a
step of its own, so that in RUNNING no cycle runs in that step, is the model's choice (log entry 2). -/
def Obligations.StartRunsAndRegisterWritesAreRefused : Prop :=
  ∀ (m : OpcodeMap) (s : State) (rest : List HostMove),
    (s.inputs = .start :: rest →
      (s.runState = .load → stepWith m s = .next { s with runState := .running, inputs := rest }) ∧
      (s.runState ≠ .load → stepWith m s = .next { s with inputs := rest })) ∧
    ∀ (i v w : Byte) (a : BitVec 9) (f : Flags),
      s.inputs = .writeReg i v :: rest ∨ s.inputs = .writePc a :: rest ∨ s.inputs = .writeSp w :: rest ∨
        s.inputs = .writeFlags f :: rest →
      stepWith m s = .next { s with inputs := rest }

/-- What the host sees: the observation port is refused exactly while RUNNING and else shows every piece of
architectural state (R101, D22; that the hidden latches are no part of it is log entry 29), `run_state` has
its codes (R19, D19), and `fault_kind` and `fault_info` tell the record (R89, D10). -/
def Obligations.HostSeesTheStateOutsideRunning : Prop :=
  (∀ s : State, observe s = none ↔ s.runState = .running) ∧
  (∀ (s : State) (o : Observation), observe s = some o → o.mem = s.mem ∧ o.x = s.x ∧ o.pc = s.pc ∧
    o.sp = s.sp ∧ o.flags = s.flags ∧ o.out = s.out ∧ o.fault = s.fault ∧ o.runState = s.runState) ∧
  (∀ s : State, (runStateCode s = 0#2 ↔ s.runState = .load) ∧ (runStateCode s = 1#2 ↔ s.runState = .running) ∧
    (runStateCode s = 2#2 ↔ s.runState = .halted) ∧ (runStateCode s = 3#2 ↔ s.runState = .faulted)) ∧
  (∀ s : State, faultKind s = 0#2 ↔ s.fault = none) ∧
  (∀ (s : State) (a : Nat), s.fault = some (.addressOutOfRange a) → a < 512 →
    faultKind s = 1#2 ∧ (faultInfo s).toNat = a) ∧
  (∀ (s : State) (i : Byte), s.fault = some (.invalidRegister i) →
    faultKind s = 2#2 ∧ (faultInfo s).toNat = i.toNat) ∧
  (∀ (s : State) (v : Byte), s.fault = some (.unsupportedOperation v) →
    faultKind s = 3#2 ∧ (faultInfo s).toNat = v.toNat)

/-- The launch state holds the image (R60, R107): byte i at address i, 0 after it, RUNNING, and every other
field as reset leaves it. -/
def Obligations.LaunchStateHoldsTheImage : Prop :=
  ∀ image : List Byte, image.length ≤ 256 →
    (∀ a < 256, memRead (launch image).mem a = .ok (image.getD a 0#8)) ∧ (launch image).mem.wf ∧
    launch image = { State.reset with mem := (launch image).mem, runState := .running }

/-- Booting an image (R106) leads to its launch state (R107): from reset, the host's writes of the image and
`start`, one move a step, leave exactly the launch state. -/
def Obligations.BootReachesTheLaunchState : Prop :=
  ∀ (m : OpcodeMap) (image : List Byte), image.length ≤ 256 →
    (coreWith m).run (image.length + 1) (bootState image) = .next (launch image)

/-- The host's text of the output log (R99, D13, log entry 23) tells the log: logs with the same text are
equal. -/
def Obligations.RenderedOutputTellsTheLog : Prop :=
  ∀ p q : List Byte, renderOut p = renderOut q → p = q
end

