-- ==== Sys2Proof/Laws/State.lean ====
section
/-!
SUPPORT. One lemma per field per update of the state, each true by rfl.
-/
namespace Sys2Proof.Machine

variable (s : State)

@[simp] theorem setMem_mem (v : Memory) : (setMem v s).mem = v := rfl
@[simp] theorem setMem_x (v : Memory) : (setMem v s).x = s.x := rfl
@[simp] theorem setMem_pc (v : Memory) : (setMem v s).pc = s.pc := rfl
@[simp] theorem setMem_sp (v : Memory) : (setMem v s).sp = s.sp := rfl
@[simp] theorem setMem_flags (v : Memory) : (setMem v s).flags = s.flags := rfl
@[simp] theorem setMem_runState (v : Memory) : (setMem v s).runState = s.runState := rfl
@[simp] theorem setMem_ir (v : Memory) : (setMem v s).ir = s.ir := rfl
@[simp] theorem setMem_opa (v : Memory) : (setMem v s).opa = s.opa := rfl
@[simp] theorem setMem_opb (v : Memory) : (setMem v s).opb = s.opb := rfl
@[simp] theorem setMem_out (v : Memory) : (setMem v s).out = s.out := rfl
@[simp] theorem setMem_fault (v : Memory) : (setMem v s).fault = s.fault := rfl
@[simp] theorem setMem_hostWrErr (v : Memory) : (setMem v s).hostWrErr = s.hostWrErr := rfl
@[simp] theorem setMem_inputs (v : Memory) : (setMem v s).inputs = s.inputs := rfl

@[simp] theorem setPc_mem (a : Nat) : (setPc a s).mem = s.mem := rfl
@[simp] theorem setPc_x (a : Nat) : (setPc a s).x = s.x := rfl
@[simp] theorem setPc_pc (a : Nat) : (setPc a s).pc = a := rfl
@[simp] theorem setPc_sp (a : Nat) : (setPc a s).sp = s.sp := rfl
@[simp] theorem setPc_flags (a : Nat) : (setPc a s).flags = s.flags := rfl
@[simp] theorem setPc_runState (a : Nat) : (setPc a s).runState = s.runState := rfl
@[simp] theorem setPc_ir (a : Nat) : (setPc a s).ir = s.ir := rfl
@[simp] theorem setPc_opa (a : Nat) : (setPc a s).opa = s.opa := rfl
@[simp] theorem setPc_opb (a : Nat) : (setPc a s).opb = s.opb := rfl
@[simp] theorem setPc_out (a : Nat) : (setPc a s).out = s.out := rfl
@[simp] theorem setPc_fault (a : Nat) : (setPc a s).fault = s.fault := rfl
@[simp] theorem setPc_hostWrErr (a : Nat) : (setPc a s).hostWrErr = s.hostWrErr := rfl
@[simp] theorem setPc_inputs (a : Nat) : (setPc a s).inputs = s.inputs := rfl

@[simp] theorem advance_mem (n : Nat) : (advance n s).mem = s.mem := rfl
@[simp] theorem advance_x (n : Nat) : (advance n s).x = s.x := rfl
@[simp] theorem advance_pc (n : Nat) : (advance n s).pc = s.pc + n := rfl
@[simp] theorem advance_sp (n : Nat) : (advance n s).sp = s.sp := rfl
@[simp] theorem advance_flags (n : Nat) : (advance n s).flags = s.flags := rfl
@[simp] theorem advance_runState (n : Nat) : (advance n s).runState = s.runState := rfl
@[simp] theorem advance_ir (n : Nat) : (advance n s).ir = s.ir := rfl
@[simp] theorem advance_opa (n : Nat) : (advance n s).opa = s.opa := rfl
@[simp] theorem advance_opb (n : Nat) : (advance n s).opb = s.opb := rfl
@[simp] theorem advance_out (n : Nat) : (advance n s).out = s.out := rfl
@[simp] theorem advance_fault (n : Nat) : (advance n s).fault = s.fault := rfl
@[simp] theorem advance_hostWrErr (n : Nat) : (advance n s).hostWrErr = s.hostWrErr := rfl
@[simp] theorem advance_inputs (n : Nat) : (advance n s).inputs = s.inputs := rfl

@[simp] theorem jumpTo_mem (t : Byte) : (jumpTo t s).mem = s.mem := rfl
@[simp] theorem jumpTo_x (t : Byte) : (jumpTo t s).x = s.x := rfl
@[simp] theorem jumpTo_pc (t : Byte) : (jumpTo t s).pc = t.toNat := rfl
@[simp] theorem jumpTo_sp (t : Byte) : (jumpTo t s).sp = s.sp := rfl
@[simp] theorem jumpTo_flags (t : Byte) : (jumpTo t s).flags = s.flags := rfl
@[simp] theorem jumpTo_runState (t : Byte) : (jumpTo t s).runState = s.runState := rfl
@[simp] theorem jumpTo_ir (t : Byte) : (jumpTo t s).ir = s.ir := rfl
@[simp] theorem jumpTo_opa (t : Byte) : (jumpTo t s).opa = s.opa := rfl
@[simp] theorem jumpTo_opb (t : Byte) : (jumpTo t s).opb = s.opb := rfl
@[simp] theorem jumpTo_out (t : Byte) : (jumpTo t s).out = s.out := rfl
@[simp] theorem jumpTo_fault (t : Byte) : (jumpTo t s).fault = s.fault := rfl
@[simp] theorem jumpTo_hostWrErr (t : Byte) : (jumpTo t s).hostWrErr = s.hostWrErr := rfl
@[simp] theorem jumpTo_inputs (t : Byte) : (jumpTo t s).inputs = s.inputs := rfl

@[simp] theorem emit_mem (v : Byte) : (emit v s).mem = s.mem := rfl
@[simp] theorem emit_x (v : Byte) : (emit v s).x = s.x := rfl
@[simp] theorem emit_pc (v : Byte) : (emit v s).pc = s.pc := rfl
@[simp] theorem emit_sp (v : Byte) : (emit v s).sp = s.sp := rfl
@[simp] theorem emit_flags (v : Byte) : (emit v s).flags = s.flags := rfl
@[simp] theorem emit_runState (v : Byte) : (emit v s).runState = s.runState := rfl
@[simp] theorem emit_ir (v : Byte) : (emit v s).ir = s.ir := rfl
@[simp] theorem emit_opa (v : Byte) : (emit v s).opa = s.opa := rfl
@[simp] theorem emit_opb (v : Byte) : (emit v s).opb = s.opb := rfl
@[simp] theorem emit_out (v : Byte) : (emit v s).out = s.out ++ [v] := rfl
@[simp] theorem emit_fault (v : Byte) : (emit v s).fault = s.fault := rfl
@[simp] theorem emit_hostWrErr (v : Byte) : (emit v s).hostWrErr = s.hostWrErr := rfl
@[simp] theorem emit_inputs (v : Byte) : (emit v s).inputs = s.inputs := rfl

@[simp] theorem setRunState_mem (r : RunState) : (setRunState r s).mem = s.mem := rfl
@[simp] theorem setRunState_x (r : RunState) : (setRunState r s).x = s.x := rfl
@[simp] theorem setRunState_pc (r : RunState) : (setRunState r s).pc = s.pc := rfl
@[simp] theorem setRunState_sp (r : RunState) : (setRunState r s).sp = s.sp := rfl
@[simp] theorem setRunState_flags (r : RunState) : (setRunState r s).flags = s.flags := rfl
@[simp] theorem setRunState_runState (r : RunState) : (setRunState r s).runState = r := rfl
@[simp] theorem setRunState_ir (r : RunState) : (setRunState r s).ir = s.ir := rfl
@[simp] theorem setRunState_opa (r : RunState) : (setRunState r s).opa = s.opa := rfl
@[simp] theorem setRunState_opb (r : RunState) : (setRunState r s).opb = s.opb := rfl
@[simp] theorem setRunState_out (r : RunState) : (setRunState r s).out = s.out := rfl
@[simp] theorem setRunState_fault (r : RunState) : (setRunState r s).fault = s.fault := rfl
@[simp] theorem setRunState_hostWrErr (r : RunState) : (setRunState r s).hostWrErr = s.hostWrErr := rfl
@[simp] theorem setRunState_inputs (r : RunState) : (setRunState r s).inputs = s.inputs := rfl

@[simp] theorem latchIr_mem (v : Byte) : (latchIr v s).mem = s.mem := rfl
@[simp] theorem latchIr_x (v : Byte) : (latchIr v s).x = s.x := rfl
@[simp] theorem latchIr_pc (v : Byte) : (latchIr v s).pc = s.pc := rfl
@[simp] theorem latchIr_sp (v : Byte) : (latchIr v s).sp = s.sp := rfl
@[simp] theorem latchIr_flags (v : Byte) : (latchIr v s).flags = s.flags := rfl
@[simp] theorem latchIr_runState (v : Byte) : (latchIr v s).runState = s.runState := rfl
@[simp] theorem latchIr_ir (v : Byte) : (latchIr v s).ir = v := rfl
@[simp] theorem latchIr_opa (v : Byte) : (latchIr v s).opa = s.opa := rfl
@[simp] theorem latchIr_opb (v : Byte) : (latchIr v s).opb = s.opb := rfl
@[simp] theorem latchIr_out (v : Byte) : (latchIr v s).out = s.out := rfl
@[simp] theorem latchIr_fault (v : Byte) : (latchIr v s).fault = s.fault := rfl
@[simp] theorem latchIr_hostWrErr (v : Byte) : (latchIr v s).hostWrErr = s.hostWrErr := rfl
@[simp] theorem latchIr_inputs (v : Byte) : (latchIr v s).inputs = s.inputs := rfl

@[simp] theorem latchOpa_mem (v : Byte) : (latchOpa v s).mem = s.mem := rfl
@[simp] theorem latchOpa_x (v : Byte) : (latchOpa v s).x = s.x := rfl
@[simp] theorem latchOpa_pc (v : Byte) : (latchOpa v s).pc = s.pc := rfl
@[simp] theorem latchOpa_sp (v : Byte) : (latchOpa v s).sp = s.sp := rfl
@[simp] theorem latchOpa_flags (v : Byte) : (latchOpa v s).flags = s.flags := rfl
@[simp] theorem latchOpa_runState (v : Byte) : (latchOpa v s).runState = s.runState := rfl
@[simp] theorem latchOpa_ir (v : Byte) : (latchOpa v s).ir = s.ir := rfl
@[simp] theorem latchOpa_opa (v : Byte) : (latchOpa v s).opa = v := rfl
@[simp] theorem latchOpa_opb (v : Byte) : (latchOpa v s).opb = s.opb := rfl
@[simp] theorem latchOpa_out (v : Byte) : (latchOpa v s).out = s.out := rfl
@[simp] theorem latchOpa_fault (v : Byte) : (latchOpa v s).fault = s.fault := rfl
@[simp] theorem latchOpa_hostWrErr (v : Byte) : (latchOpa v s).hostWrErr = s.hostWrErr := rfl
@[simp] theorem latchOpa_inputs (v : Byte) : (latchOpa v s).inputs = s.inputs := rfl

@[simp] theorem latchOpb_mem (v : Byte) : (latchOpb v s).mem = s.mem := rfl
@[simp] theorem latchOpb_x (v : Byte) : (latchOpb v s).x = s.x := rfl
@[simp] theorem latchOpb_pc (v : Byte) : (latchOpb v s).pc = s.pc := rfl
@[simp] theorem latchOpb_sp (v : Byte) : (latchOpb v s).sp = s.sp := rfl
@[simp] theorem latchOpb_flags (v : Byte) : (latchOpb v s).flags = s.flags := rfl
@[simp] theorem latchOpb_runState (v : Byte) : (latchOpb v s).runState = s.runState := rfl
@[simp] theorem latchOpb_ir (v : Byte) : (latchOpb v s).ir = s.ir := rfl
@[simp] theorem latchOpb_opa (v : Byte) : (latchOpb v s).opa = s.opa := rfl
@[simp] theorem latchOpb_opb (v : Byte) : (latchOpb v s).opb = v := rfl
@[simp] theorem latchOpb_out (v : Byte) : (latchOpb v s).out = s.out := rfl
@[simp] theorem latchOpb_fault (v : Byte) : (latchOpb v s).fault = s.fault := rfl
@[simp] theorem latchOpb_hostWrErr (v : Byte) : (latchOpb v s).hostWrErr = s.hostWrErr := rfl
@[simp] theorem latchOpb_inputs (v : Byte) : (latchOpb v s).inputs = s.inputs := rfl

@[simp] theorem setHostWrErr_mem (b : Bool) : (setHostWrErr b s).mem = s.mem := rfl
@[simp] theorem setHostWrErr_x (b : Bool) : (setHostWrErr b s).x = s.x := rfl
@[simp] theorem setHostWrErr_pc (b : Bool) : (setHostWrErr b s).pc = s.pc := rfl
@[simp] theorem setHostWrErr_sp (b : Bool) : (setHostWrErr b s).sp = s.sp := rfl
@[simp] theorem setHostWrErr_flags (b : Bool) : (setHostWrErr b s).flags = s.flags := rfl
@[simp] theorem setHostWrErr_runState (b : Bool) : (setHostWrErr b s).runState = s.runState := rfl
@[simp] theorem setHostWrErr_ir (b : Bool) : (setHostWrErr b s).ir = s.ir := rfl
@[simp] theorem setHostWrErr_opa (b : Bool) : (setHostWrErr b s).opa = s.opa := rfl
@[simp] theorem setHostWrErr_opb (b : Bool) : (setHostWrErr b s).opb = s.opb := rfl
@[simp] theorem setHostWrErr_out (b : Bool) : (setHostWrErr b s).out = s.out := rfl
@[simp] theorem setHostWrErr_fault (b : Bool) : (setHostWrErr b s).fault = s.fault := rfl
@[simp] theorem setHostWrErr_hostWrErr (b : Bool) : (setHostWrErr b s).hostWrErr = b := rfl
@[simp] theorem setHostWrErr_inputs (b : Bool) : (setHostWrErr b s).inputs = s.inputs := rfl

@[simp] theorem setInputs_mem (ms : List HostMove) : (setInputs ms s).mem = s.mem := rfl
@[simp] theorem setInputs_x (ms : List HostMove) : (setInputs ms s).x = s.x := rfl
@[simp] theorem setInputs_pc (ms : List HostMove) : (setInputs ms s).pc = s.pc := rfl
@[simp] theorem setInputs_sp (ms : List HostMove) : (setInputs ms s).sp = s.sp := rfl
@[simp] theorem setInputs_flags (ms : List HostMove) : (setInputs ms s).flags = s.flags := rfl
@[simp] theorem setInputs_runState (ms : List HostMove) : (setInputs ms s).runState = s.runState := rfl
@[simp] theorem setInputs_ir (ms : List HostMove) : (setInputs ms s).ir = s.ir := rfl
@[simp] theorem setInputs_opa (ms : List HostMove) : (setInputs ms s).opa = s.opa := rfl
@[simp] theorem setInputs_opb (ms : List HostMove) : (setInputs ms s).opb = s.opb := rfl
@[simp] theorem setInputs_out (ms : List HostMove) : (setInputs ms s).out = s.out := rfl
@[simp] theorem setInputs_fault (ms : List HostMove) : (setInputs ms s).fault = s.fault := rfl
@[simp] theorem setInputs_hostWrErr (ms : List HostMove) : (setInputs ms s).hostWrErr = s.hostWrErr := rfl
@[simp] theorem setInputs_inputs (ms : List HostMove) : (setInputs ms s).inputs = ms := rfl

@[simp] theorem setFlags_mem (f : Flags) : (setFlags f s).mem = s.mem := rfl
@[simp] theorem setFlags_x (f : Flags) : (setFlags f s).x = s.x := rfl
@[simp] theorem setFlags_pc (f : Flags) : (setFlags f s).pc = s.pc := rfl
@[simp] theorem setFlags_sp (f : Flags) : (setFlags f s).sp = s.sp := rfl
@[simp] theorem setFlags_flags (f : Flags) : (setFlags f s).flags = f := rfl
@[simp] theorem setFlags_runState (f : Flags) : (setFlags f s).runState = s.runState := rfl
@[simp] theorem setFlags_ir (f : Flags) : (setFlags f s).ir = s.ir := rfl
@[simp] theorem setFlags_opa (f : Flags) : (setFlags f s).opa = s.opa := rfl
@[simp] theorem setFlags_opb (f : Flags) : (setFlags f s).opb = s.opb := rfl
@[simp] theorem setFlags_out (f : Flags) : (setFlags f s).out = s.out := rfl
@[simp] theorem setFlags_fault (f : Flags) : (setFlags f s).fault = s.fault := rfl
@[simp] theorem setFlags_hostWrErr (f : Flags) : (setFlags f s).hostWrErr = s.hostWrErr := rfl
@[simp] theorem setFlags_inputs (f : Flags) : (setFlags f s).inputs = s.inputs := rfl

@[simp] theorem takeFault_mem (f : FaultRecord) : (takeFault f s).mem = s.mem := rfl
@[simp] theorem takeFault_x (f : FaultRecord) : (takeFault f s).x = s.x := rfl
@[simp] theorem takeFault_pc (f : FaultRecord) : (takeFault f s).pc = s.pc := rfl
@[simp] theorem takeFault_sp (f : FaultRecord) : (takeFault f s).sp = s.sp := rfl
@[simp] theorem takeFault_flags (f : FaultRecord) : (takeFault f s).flags = s.flags := rfl
@[simp] theorem takeFault_runState (f : FaultRecord) : (takeFault f s).runState = .faulted := rfl
@[simp] theorem takeFault_ir (f : FaultRecord) : (takeFault f s).ir = s.ir := rfl
@[simp] theorem takeFault_opa (f : FaultRecord) : (takeFault f s).opa = s.opa := rfl
@[simp] theorem takeFault_opb (f : FaultRecord) : (takeFault f s).opb = s.opb := rfl
@[simp] theorem takeFault_out (f : FaultRecord) : (takeFault f s).out = s.out := rfl
@[simp] theorem takeFault_fault (f : FaultRecord) : (takeFault f s).fault = some f := rfl
@[simp] theorem takeFault_hostWrErr (f : FaultRecord) : (takeFault f s).hostWrErr = s.hostWrErr := rfl
@[simp] theorem takeFault_inputs (f : FaultRecord) : (takeFault f s).inputs = s.inputs := rfl

@[simp] theorem resetCore_mem : (resetCore s).mem = State.reset.mem := rfl
@[simp] theorem resetCore_x : (resetCore s).x = State.reset.x := rfl
@[simp] theorem resetCore_pc : (resetCore s).pc = State.reset.pc := rfl
@[simp] theorem resetCore_sp : (resetCore s).sp = State.reset.sp := rfl
@[simp] theorem resetCore_flags : (resetCore s).flags = State.reset.flags := rfl
@[simp] theorem resetCore_runState : (resetCore s).runState = State.reset.runState := rfl
@[simp] theorem resetCore_ir : (resetCore s).ir = State.reset.ir := rfl
@[simp] theorem resetCore_opa : (resetCore s).opa = State.reset.opa := rfl
@[simp] theorem resetCore_opb : (resetCore s).opb = State.reset.opb := rfl
@[simp] theorem resetCore_out : (resetCore s).out = State.reset.out := rfl
@[simp] theorem resetCore_fault : (resetCore s).fault = State.reset.fault := rfl
@[simp] theorem resetCore_hostWrErr : (resetCore s).hostWrErr = State.reset.hostWrErr := rfl
@[simp] theorem resetCore_inputs : (resetCore s).inputs = s.inputs := rfl

end Sys2Proof.Machine
end

