-- ==== Sys2Proof/Laws/Ops.lean ====
section
/-!
SUPPORT. What each shared operation can do, said once: memory, registers, the ALU, the end of an
instruction's step.
-/
namespace Sys2Proof.Machine

/-! ### Memory -/

@[simp] theorem cellAt_nil (a : Nat) : cellAt [] a = unlistedByte := rfl

theorem cellAt_cons (b : Nat) (v : Byte) (rest : Memory) (a : Nat) :
    cellAt ((b, v) :: rest) a = if b = a then v else cellAt rest a := rfl

/-- An address below every listed one reads as unlisted. -/
theorem cellAt_of_forall_lt {mem : Memory} {a : Nat} (h : ∀ c ∈ mem, a < c.1) :
    cellAt mem a = unlistedByte := by
  induction mem with
  | nil => rfl
  | cons c rest ih =>
    have hc := h c (by simp)
    rw [cellAt_cons, if_neg (by omega)]
    exact ih fun d hd => h d (by simp [hd])

theorem cellAt_listCell {a : Nat} {v : Byte} {rest : Memory} (h : ∀ c ∈ rest, a < c.1) (b : Nat) :
    cellAt (listCell a v rest) b = if b = a then v else cellAt rest b := by
  unfold listCell
  split
  · next hv =>
    split
    · next hb => rw [hb, cellAt_of_forall_lt h, hv]
    · rfl
  · rw [cellAt_cons]; simp only [eq_comm]

/-- A cell after a write: the written one holds the byte, every other what it held. -/
theorem cellAt_putCell {mem : Memory} (h : mem.Pairwise fun c d => c.1 < d.1) (a : Nat) (v : Byte)
    (b : Nat) : cellAt (putCell mem a v) b = if b = a then v else cellAt mem b := by
  induction mem with
  | nil => exact cellAt_listCell (by simp) b
  | cons c rest ih =>
    obtain ⟨k, w⟩ := c
    obtain ⟨hk, hrest⟩ := List.pairwise_cons.mp h
    unfold putCell
    split
    · next hak =>
      refine cellAt_listCell (fun c hc => ?_) b
      rcases List.mem_cons.mp hc with rfl | hc
      · exact hak
      · exact Nat.lt_trans hak (hk c hc)
    · split
      · next hak =>
        subst hak
        rw [cellAt_listCell hk, cellAt_cons]
        split
        · rfl
        · rw [if_neg (by omega)]
      · simp only [cellAt_cons, ih hrest]
        split
        · rw [if_neg (by omega)]
        · rfl

/-- The addresses a write lists are the one written and those listed before. -/
theorem mem_putCell {mem : Memory} {a : Nat} {v : Byte} {c : Host.Cell} (h : c ∈ putCell mem a v) :
    (c = (a, v) ∧ v ≠ unlistedByte) ∨ c ∈ mem := by
  have list : ∀ {rest : Memory}, c ∈ listCell a v rest → (c = (a, v) ∧ v ≠ unlistedByte) ∨ c ∈ rest := by
    intro rest hc
    unfold listCell at hc
    split at hc
    · exact .inr hc
    · next hv => exact (List.mem_cons.mp hc).imp (fun e => ⟨e, hv⟩) id
  induction mem with
  | nil => exact list h
  | cons d rest ih =>
    obtain ⟨k, w⟩ := d
    unfold putCell at h
    split at h
    · exact list h
    · split at h
      · exact (list h).imp id (List.mem_cons_of_mem _)
      · rcases List.mem_cons.mp h with rfl | h
        · exact .inr (by simp)
        · exact (ih h).imp id (List.mem_cons_of_mem _)

theorem listCell_pairwise {a : Nat} {v : Byte} {rest : Memory} (h : ∀ c ∈ rest, a < c.1)
    (hr : rest.Pairwise fun c d => c.1 < d.1) : (listCell a v rest).Pairwise fun c d => c.1 < d.1 := by
  unfold listCell
  split
  · exact hr
  · exact List.pairwise_cons.mpr ⟨h, hr⟩

/-- A write keeps the addresses strictly rising. -/
theorem putCell_pairwise {mem : Memory} (h : mem.Pairwise fun c d => c.1 < d.1) (a : Nat) (v : Byte) :
    (putCell mem a v).Pairwise fun c d => c.1 < d.1 := by
  induction mem with
  | nil => exact listCell_pairwise (by simp) .nil
  | cons c rest ih =>
    obtain ⟨k, w⟩ := c
    obtain ⟨hk, hrest⟩ := List.pairwise_cons.mp h
    unfold putCell
    split
    · next hak =>
      refine listCell_pairwise (fun c hc => ?_) h
      rcases List.mem_cons.mp hc with rfl | hc
      · exact hak
      · exact Nat.lt_trans hak (hk c hc)
    · split
      · next hak => subst hak; exact listCell_pairwise hk hrest
      · refine List.pairwise_cons.mpr ⟨fun c hc => ?_, ih hrest⟩
        rcases mem_putCell hc with ⟨rfl, -⟩ | hc
        · simp only; omega
        · exact hk c hc

/-- A write within the 256 cells keeps the canonical form. -/
theorem putCell_wf {mem : Memory} (h : mem.wf) {a : Nat} (ha : a < 256) (v : Byte) : (putCell mem a v).wf :=
  ⟨putCell_pairwise h.1 a v, fun c hc => by
    rcases mem_putCell hc with ⟨rfl, hv⟩ | hc
    · exact ⟨ha, hv⟩
    · exact h.2 c hc⟩

theorem memRead_of_lt {a : Nat} (h : a < 256) (mem : Memory) : memRead mem a = .ok (cellAt mem a) :=
  if_pos h

theorem memRead_of_le {a : Nat} (h : 256 ≤ a) (mem : Memory) :
    memRead mem a = .error (.addressOutOfRange a) := if_neg (by omega)

theorem memWrite_of_lt {a : Nat} (h : a < 256) (mem : Memory) (v : Byte) :
    memWrite mem a v = .ok (putCell mem a v) := if_pos h

theorem memWrite_of_le {a : Nat} (h : 256 ≤ a) (mem : Memory) (v : Byte) :
    memWrite mem a v = .error (.addressOutOfRange a) := if_neg (by omega)

/-- A write that succeeds keeps the canonical form. -/
theorem memWrite_wf {mem mem' : Memory} {a : Nat} {v : Byte} (h : mem.wf) (hw : memWrite mem a v = .ok mem') :
    mem'.wf := by
  unfold memWrite at hw
  split at hw
  · next ha => cases hw; exact putCell_wf h ha v
  · cases hw

/-- Reset memory is in canonical form. -/
theorem reset_mem_wf : State.reset.mem.wf := ⟨.nil, fun _ h => nomatch h⟩

/-! ### Registers -/

theorem readReg_of_lt {i : Byte} (h : i.toNat < 8) (s : State) : readReg i s = .ok s.x[i.toNat] :=
  dif_pos h

theorem readReg_of_le {i : Byte} (h : 8 ≤ i.toNat) (s : State) : readReg i s = .error (.invalidRegister i) :=
  dif_neg (by omega)

theorem writeReg_of_lt {i : Byte} (h : i.toNat < 8) (v : Byte) (s : State) :
    writeReg i v s = .ok { s with x := s.x.set i.toNat v h } := dif_pos h

theorem writeReg_of_le {i : Byte} (h : 8 ≤ i.toNat) (v : Byte) (s : State) :
    writeReg i v s = .error (.invalidRegister i) := dif_neg (by omega)

/-- A register reads the same in two states that hold the same registers. -/
theorem readReg_congr {s t : State} (h : t.x = s.x) (i : Byte) : readReg i t = readReg i s := by
  simp only [readReg, h]

theorem withReg_of_lt {i : Byte} (h : i.toNat < 8) (s : State) (k : Byte → Except FaultRecord State) :
    withReg i s k = k s.x[i.toNat] := by rw [withReg, readReg_of_lt h]

theorem withReg_of_le {i : Byte} (h : 8 ≤ i.toNat) (s : State) (k : Byte → Except FaultRecord State) :
    withReg i s k = .error (.invalidRegister i) := by rw [withReg, readReg_of_le h]

theorem withRegs_of_lt {a b : Byte} (ha : a.toNat < 8) (hb : b.toNat < 8) (s : State)
    (k : Byte → Byte → Except FaultRecord State) : withRegs a b s k = k s.x[a.toNat] s.x[b.toNat] := by
  rw [withRegs, withReg_of_lt ha, withReg_of_lt hb]

theorem withRegs_of_le {a : Byte} (ha : 8 ≤ a.toNat) (b : Byte) (s : State)
    (k : Byte → Byte → Except FaultRecord State) : withRegs a b s k = .error (.invalidRegister a) := by
  rw [withRegs, withReg_of_le ha]

theorem withRegs_of_lt_of_le {a b : Byte} (ha : a.toNat < 8) (hb : 8 ≤ b.toNat) (s : State)
    (k : Byte → Byte → Except FaultRecord State) : withRegs a b s k = .error (.invalidRegister b) := by
  rw [withRegs, withReg_of_lt ha, withReg_of_le hb]

/-! ### The ALU -/

@[simp] theorem aluOpOf_aluSelect (op : AluOp) : aluOpOf (aluSelect op) = some op := by cases op <;> rfl

theorem alu_aluSelect (op : AluOp) (a b : Byte) (s : State) : alu (aluSelect op) a b s = aluApply op a b s := by
  rw [alu, aluOpOf_aluSelect]

theorem aluAdd_toNat (v w : Byte) : (aluAdd v w).toNat = (v.toNat + w.toNat) % 256 := BitVec.toNat_ofNat ..

theorem aluMul_toNat (v w : Byte) : (aluMul v w).toNat = (v.toNat * w.toNat) % 256 := BitVec.toNat_ofNat ..

/-- The flags of a comparison, bit by bit. -/
theorem aluCmp_eq (v w : Byte) : aluCmp v w =
    { e := decide (v.toNat = w.toNat), g := decide (v.toNat > w.toNat), l := decide (v.toNat < w.toNat) } := by
  simp only [aluCmp, ← BitVec.toNat_inj]
  rcases Nat.lt_trichotomy v.toNat w.toNat with h | h | h
  · simp [h, Nat.ne_of_lt h, Nat.lt_asymm h]
  · simp [h]
  · simp [h, Nat.ne_of_gt h, Nat.lt_asymm h]

/-! ### The end of an instruction's step -/

@[simp] theorem commit_ok (s t : State) : commit s (.ok t) = .next t := rfl

@[simp] theorem commit_error (s : State) (f : FaultRecord) : commit s (.error f) = .next (takeFault f s) := rfl

/-- A step that ends is the state written, or fault entry. -/
theorem commit_cases {s t : State} {r : Except FaultRecord State} (h : commit s r = .next t) :
    r = .ok t ∨ ∃ f, r = .error f ∧ t = takeFault f s := by
  cases r with
  | ok u => cases h; exact .inl rfl
  | error f => cases h; exact .inr ⟨f, rfl, rfl⟩

/-- The end of an instruction's step is always a next state. -/
theorem commit_next (s : State) (r : Except FaultRecord State) : ∃ t, commit s r = .next t := by
  cases r with
  | ok t => exact ⟨t, rfl⟩
  | error f => exact ⟨_, rfl⟩

end Sys2Proof.Machine
end

