-- ==== Sys2Proof/Laws/PerInstr.lean ====
section
/-!
SUPPORT. The family Layout, one lemma per constructor: an encoding is the opcode byte and then the operand
bytes, as many bytes as the instruction's format has (R46, R47, R57).
-/
namespace Sys2Proof.Laws.Layout

/-- What the family says of an instruction. -/
def Statement (i : Instr) : Prop :=
  ∀ m : OpcodeMap, (encode m i).length = i.length ∧ 1 ≤ i.length ∧ i.length ≤ 3 ∧
    (encode m i).head? = some (opcodeOf m i) ∧ opcodeOf m i ∈ m.values

theorem ldi (ra imm : Byte) : Statement (.ldi ra imm) := fun m => by
  simp [encode, operandBytes, Instr.length, opcodeOf, OpcodeMap.values]

theorem prn (ra : Byte) : Statement (.prn ra) := fun m => by
  simp [encode, operandBytes, Instr.length, opcodeOf, OpcodeMap.values]

theorem hlt : Statement .hlt := fun m => by
  simp [encode, operandBytes, Instr.length, opcodeOf, OpcodeMap.values]

theorem mul (ra rb : Byte) : Statement (.mul ra rb) := fun m => by
  simp [encode, operandBytes, Instr.length, opcodeOf, OpcodeMap.values]

theorem cmp (ra rb : Byte) : Statement (.cmp ra rb) := fun m => by
  simp [encode, operandBytes, Instr.length, opcodeOf, OpcodeMap.values]

theorem jmp (ra : Byte) : Statement (.jmp ra) := fun m => by
  simp [encode, operandBytes, Instr.length, opcodeOf, OpcodeMap.values]

theorem jeq (ra : Byte) : Statement (.jeq ra) := fun m => by
  simp [encode, operandBytes, Instr.length, opcodeOf, OpcodeMap.values]

theorem jne (ra : Byte) : Statement (.jne ra) := fun m => by
  simp [encode, operandBytes, Instr.length, opcodeOf, OpcodeMap.values]

end Sys2Proof.Laws.Layout
end

