-- ==== Sys2Proof/Laws/Step.lean ====
section
/-!
SUPPORT. What decoding, the fetch phase and a step can do, said once.
-/
namespace Sys2Proof

/-- What a successful decode says: the opcode byte and the operand bytes are the instruction's. -/
theorem decode_cases {m : OpcodeMap} {ir opa opb : Byte} {i : Instr} (h : decode m ir opa opb = .ok i) :
    (ir = m.ldi ∧ i = .ldi opa opb) ∨ (ir = m.prn ∧ i = .prn opa) ∨ (ir = m.hlt ∧ i = .hlt) ∨
    (ir = m.mul ∧ i = .mul opa opb) ∨ (ir = m.cmp ∧ i = .cmp opa opb) ∨ (ir = m.jmp ∧ i = .jmp opa) ∨
    (ir = m.jeq ∧ i = .jeq opa) ∨ (ir = m.jne ∧ i = .jne opa) := by
  unfold decode at h
  repeat' split at h
  all_goals cases h
  all_goals simp_all

namespace Machine

/-- What an instruction writes when nothing is raised (R81 to R88). -/
def Effect (s t : State) : Instr → Prop
  | .ldi ra imm => ∃ h : ra.toNat < 8, t = { s with x := s.x.set ra.toNat imm h, pc := s.pc + 3 }
  | .prn ra => ∃ h : ra.toNat < 8, t = { s with out := s.out ++ [s.x[ra.toNat]], pc := s.pc + 2 }
  | .hlt => t = { s with runState := .halted, pc := s.pc + 1 }
  | .mul ra rb => ∃ (h : ra.toNat < 8) (_ : rb.toNat < 8),
      t = { s with x := s.x.set ra.toNat (aluMul s.x[ra.toNat] s.x[rb.toNat]) h, pc := s.pc + 3 }
  | .cmp ra rb => ∃ (_ : ra.toNat < 8) (_ : rb.toNat < 8),
      t = { s with flags := aluCmp s.x[ra.toNat] s.x[rb.toNat], pc := s.pc + 3 }
  | .jmp ra => ∃ _ : ra.toNat < 8, t = { s with pc := s.x[ra.toNat].toNat }
  | .jeq ra => (s.flags.e = true ∧ ∃ _ : ra.toNat < 8, t = { s with pc := s.x[ra.toNat].toNat }) ∨
      (s.flags.e = false ∧ t = { s with pc := s.pc + 2 })
  | .jne ra => (s.flags.e = false ∧ ∃ _ : ra.toNat < 8, t = { s with pc := s.x[ra.toNat].toNat }) ∨
      (s.flags.e = true ∧ t = { s with pc := s.pc + 2 })

/-- The execute phase: fault entry on an invalid index that is an operand, or the instruction's effect. -/
theorem exec_cases {i : Instr} {s t : State} (h : exec i s = .next t) :
    (∃ r, r ∈ operandBytes i ∧ 8 ≤ r.toNat ∧ i.wf = false ∧ t = takeFault (.invalidRegister r) s) ∨
    Effect s t i := by
  cases i with
  | ldi ra imm =>
    simp only [exec, execLdi] at h
    rcases Nat.lt_or_ge ra.toNat 8 with hr | hr
    · rw [writeReg_of_lt hr] at h; cases h; exact .inr ⟨hr, rfl⟩
    · rw [writeReg_of_le hr] at h; cases h
      exact .inl ⟨ra, by simp [operandBytes], hr, by simp [Instr.wf, Nat.not_lt.mpr hr], rfl⟩
  | prn ra =>
    simp only [exec, execPrn] at h
    rcases Nat.lt_or_ge ra.toNat 8 with hr | hr
    · rw [withReg_of_lt hr] at h; cases h; exact .inr ⟨hr, rfl⟩
    · rw [withReg_of_le hr] at h; cases h
      exact .inl ⟨ra, by simp [operandBytes], hr, by simp [Instr.wf, Nat.not_lt.mpr hr], rfl⟩
  | hlt => cases h; exact .inr rfl
  | mul ra rb =>
    simp only [exec, execMul, alu_aluSelect, aluApply] at h
    rcases Nat.lt_or_ge ra.toNat 8 with hr | hr
    · rcases Nat.lt_or_ge rb.toNat 8 with hs | hs
      · rw [withRegs_of_lt hr hs, writeReg_of_lt hr] at h; cases h; exact .inr ⟨hr, hs, rfl⟩
      · rw [withRegs_of_lt_of_le hr hs] at h; cases h
        exact .inl ⟨rb, by simp [operandBytes], hs, by simp [Instr.wf, Nat.not_lt.mpr hs], rfl⟩
    · rw [withRegs_of_le hr] at h; cases h
      exact .inl ⟨ra, by simp [operandBytes], hr, by simp [Instr.wf, Nat.not_lt.mpr hr], rfl⟩
  | cmp ra rb =>
    simp only [exec, execCmp, alu_aluSelect, aluApply] at h
    rcases Nat.lt_or_ge ra.toNat 8 with hr | hr
    · rcases Nat.lt_or_ge rb.toNat 8 with hs | hs
      · rw [withRegs_of_lt hr hs] at h; cases h; exact .inr ⟨hr, hs, rfl⟩
      · rw [withRegs_of_lt_of_le hr hs] at h; cases h
        exact .inl ⟨rb, by simp [operandBytes], hs, by simp [Instr.wf, Nat.not_lt.mpr hs], rfl⟩
    · rw [withRegs_of_le hr] at h; cases h
      exact .inl ⟨ra, by simp [operandBytes], hr, by simp [Instr.wf, Nat.not_lt.mpr hr], rfl⟩
  | jmp ra =>
    simp only [exec, execJmp, jumpReg] at h
    rcases Nat.lt_or_ge ra.toNat 8 with hr | hr
    · rw [withReg_of_lt hr] at h; cases h; exact .inr ⟨hr, rfl⟩
    · rw [withReg_of_le hr] at h; cases h
      exact .inl ⟨ra, by simp [operandBytes], hr, by simp [Instr.wf, Nat.not_lt.mpr hr], rfl⟩
  | jeq ra =>
    simp only [exec, execJeq, jumpReg] at h
    cases he : s.flags.e with
    | false => rw [he, if_neg (by decide)] at h; cases h; exact .inr (.inr ⟨he, rfl⟩)
    | true =>
      rw [he, if_pos rfl] at h
      rcases Nat.lt_or_ge ra.toNat 8 with hr | hr
      · rw [withReg_of_lt hr] at h; cases h; exact .inr (.inl ⟨he, hr, rfl⟩)
      · rw [withReg_of_le hr] at h; cases h
        exact .inl ⟨ra, by simp [operandBytes], hr, by simp [Instr.wf, Nat.not_lt.mpr hr], rfl⟩
  | jne ra =>
    simp only [exec, execJne, jumpReg] at h
    cases he : s.flags.e with
    | true => rw [he, if_neg (by decide)] at h; cases h; exact .inr (.inr ⟨he, rfl⟩)
    | false =>
      rw [he, if_pos rfl] at h
      rcases Nat.lt_or_ge ra.toNat 8 with hr | hr
      · rw [withReg_of_lt hr] at h; cases h; exact .inr (.inl ⟨he, hr, rfl⟩)
      · rw [withReg_of_le hr] at h; cases h
        exact .inl ⟨ra, by simp [operandBytes], hr, by simp [Instr.wf, Nat.not_lt.mpr hr], rfl⟩

/-- The three latches filled from the bytes at `pc`. -/
def latched (s : State) : State :=
  latchOpb (cellAt s.mem (s.pc + 2)) (latchOpa (cellAt s.mem (s.pc + 1)) (latchIr (cellAt s.mem s.pc) s))

/-- The fetch phase: three bytes, or the first address above memory. -/
theorem fetch_cases (s : State) :
    (s.pc + 2 < 256 ∧ fetch s = (latched s, none)) ∨
    (256 ≤ s.pc ∧ fetch s = (s, some (.addressOutOfRange s.pc))) ∨
    (s.pc + 1 = 256 ∧ fetch s = (latchIr (cellAt s.mem s.pc) s, some (.addressOutOfRange (s.pc + 1)))) ∨
    (s.pc + 2 = 256 ∧ fetch s = (latchOpa (cellAt s.mem (s.pc + 1)) (latchIr (cellAt s.mem s.pc) s),
      some (.addressOutOfRange (s.pc + 2)))) := by
  unfold fetch
  rcases Nat.lt_or_ge s.pc 256 with h0 | h0
  · rw [memRead_of_lt h0]
    rcases Nat.lt_or_ge (s.pc + 1) 256 with h1 | h1
    · rw [memRead_of_lt h1]
      rcases Nat.lt_or_ge (s.pc + 2) 256 with h2 | h2
      · rw [memRead_of_lt h2]; exact .inl ⟨h2, rfl⟩
      · rw [memRead_of_le h2]; exact .inr (.inr (.inr ⟨by omega, rfl⟩))
    · rw [memRead_of_le h1]; exact .inr (.inr (.inl ⟨by omega, rfl⟩))
  · rw [memRead_of_le h0]; exact .inr (.inl ⟨h0, rfl⟩)

/-- A cycle: fault entry on what the fetch latched, or decode and dispatch. -/
theorem cycle_cases {m : OpcodeMap} {s t : State} (h : cycle m s = .next t) :
    (∃ u f, fetch s = (u, some f) ∧ t = takeFault f u) ∨
    (s.pc + 2 < 256 ∧ fetch s = (latched s, none) ∧
      ((∃ why, s.decodeAtPc m = .error why ∧ t = takeFault (rejectFault why) (latched s)) ∨
        ∃ i, s.decodeAtPc m = .ok i ∧ exec i (latched s) = .next t)) := by
  unfold cycle at h
  rcases fetch_cases s with ⟨hp, hf⟩ | ⟨_, hf⟩ | ⟨_, hf⟩ | ⟨_, hf⟩
  · rw [hf] at h
    refine .inr ⟨hp, hf, ?_⟩
    change dispatch m (latched s) = .next t at h
    unfold dispatch at h
    change (match s.decodeAtPc m with | .ok i => _ | .error r => _) = _ at h
    split at h
    · next i hi => exact .inr ⟨i, hi, h⟩
    · next why hr => cases h; exact .inl ⟨why, hr, rfl⟩
  all_goals
    rw [hf] at h
    cases h
    exact .inl ⟨_, _, hf, rfl⟩

/-- With no move to come there is none to use up. -/
theorem setInputs_of_nil {s : State} (h : s.inputs = []) : setInputs [] s = s := by
  cases s; cases h; rfl

/-- A step of the CORE's turn, on the state with the idle move, if there is one, used up. -/
theorem stepWith_of_coreHasTurn {m : OpcodeMap} {s : State} (h : s.coreHasTurn) :
    stepWith m s = coreTurn m (setInputs s.inputs.tail s) := by
  unfold stepWith
  cases hi : s.inputs with
  | nil => exact (congrArg (coreTurn m) (setInputs_of_nil hi)).symm
  | cons move rest =>
    rcases h with h | h <;> rw [hi] at h <;> cases h
    rfl

/-- A step of a move of the host. -/
theorem stepWith_of_move {m : OpcodeMap} {s : State} {move : HostMove} (h : s.inputs.head? = some move)
    (hm : move ≠ .idle) : stepWith m s = .next (hostMove move (setInputs s.inputs.tail s)) := by
  unfold stepWith
  cases hi : s.inputs with
  | nil => rw [hi] at h; cases h
  | cons move' rest => rw [hi] at h; cases h; cases move <;> first | rfl | exact absurd rfl hm

/-- A step: the CORE's turn, or a move of the host. -/
theorem stepWith_cases {m : OpcodeMap} {s t : State} (h : stepWith m s = .next t) :
    (s.coreHasTurn ∧ coreTurn m (setInputs s.inputs.tail s) = .next t) ∨
    ∃ move, s.inputs.head? = some move ∧ move ≠ .idle ∧ t = hostMove move (setInputs s.inputs.tail s) := by
  cases hi : s.inputs.head? with
  | none => rw [stepWith_of_coreHasTurn (.inl hi)] at h; exact .inl ⟨.inl hi, h⟩
  | some move =>
    by_cases hm : move = .idle
    · subst hm; rw [stepWith_of_coreHasTurn (.inr hi)] at h; exact .inl ⟨.inr hi, h⟩
    · rw [stepWith_of_move hi hm] at h; cases h; exact .inr ⟨move, rfl, hm, rfl⟩

/-- A run of any machine takes its first step. -/
theorem run_succ {M : Host.Core} {s t : M.State} (h : M.step s = .next t) (k : Nat) :
    M.run (k + 1) s = M.run k t := by
  simp only [Host.Core.run, h]

/-- The machine behind the host's interface is that of the default map. -/
theorem core_eq : core = coreWith opcodeMap := rfl

/-- A run takes its first step. -/
theorem run_succ_of_step {m : OpcodeMap} {s t : State} (h : stepWith m s = .next t) (k : Nat) :
    (coreWith m).run (k + 1) s = (coreWith m).run k t :=
  run_succ (M := coreWith m) h k

end Machine

end Sys2Proof
end

