-- ==== Sys2Proof/Tests/Slice0.lean ====
section
/-!
SUPPORT. Small tests, each on one step, with the expected results of spec/ (95_test_vectors.md and the worked
examples of the rules); the smoke test of well-formedness; and a witness for each statement with hypotheses.
-/
namespace Sys2Proof.Tests

open Sys2Proof Sys2Proof.Machine

/-- The next state of an answer; reset if there is none. -/
def after : Host.Outcome State Fault Refusal → State
  | .next t => t
  | .fault _ => State.reset
  | .refused _ => State.reset

/-- RUNNING at `pc`, with bytes from `pc` on and the first two registers set. -/
def at_ (pc : Nat) (bytes : List Byte) (x0 x1 : Byte := 0#8) : State :=
  placeBytes pc bytes { State.reset with runState := .running, pc := pc, x := (State.reset.x.set 0 x0).set 1 x1 }

/-- The state with the flags set. -/
def flagged (e g l : Bool) (s : State) : State := setFlags { e := e, g := g, l := l } s

/-! ### Well-formedness refuses each ill-formed term -/

theorem test_opcodeMap_wf : opcodeMap.wf := by decide

theorem test_opcodeMap_wf_refuses :
    ¬ { opcodeMap with jne := 0x55#8 }.wf ∧ ¬ { opcodeMap with ldi := 0x83#8 }.wf ∧
    ¬ { opcodeMap with prn := 0x48#8 }.wf ∧ ¬ { opcodeMap with hlt := 0x00#8 }.wf := by decide

theorem test_instr_wf_refuses :
    (Instr.ldi 8#8 0#8).wf = false ∧ (Instr.prn 8#8).wf = false ∧ (Instr.mul 8#8 0#8).wf = false ∧
    (Instr.mul 0#8 8#8).wf = false ∧ (Instr.cmp 8#8 0#8).wf = false ∧ (Instr.cmp 0#8 255#8).wf = false ∧
    (Instr.jmp 8#8).wf = false ∧ (Instr.jeq 8#8).wf = false ∧ (Instr.jne 8#8).wf = false ∧
    (Instr.ldi 7#8 255#8).wf = true ∧ Instr.hlt.wf = true := by decide

theorem test_memory_wf_refuses :
    ¬ Memory.wf [(4, 1#8), (3, 1#8)] ∧ ¬ Memory.wf [(3, 1#8), (3, 2#8)] ∧ ¬ Memory.wf [(256, 1#8)] ∧
    ¬ Memory.wf [(3, 0#8)] ∧ Memory.wf [(0, 1#8), (255, 2#8)] := by decide

theorem test_flags_exclusive_refuses :
    Flags.exclusive ⟨true, true, false⟩ = false ∧ Flags.exclusive ⟨true, false, true⟩ = false ∧
    Flags.exclusive ⟨false, true, true⟩ = false := by decide

/-! ### Decoding: words written out bit by bit from spec/opcode_table.json and R58 -/

theorem test_decode_ldi : decodeBytes opcodeMap [0b10000010#8, 0b00000000#8, 0b00001000#8] = .ok (.ldi 0#8 8#8) := rfl
theorem test_decode_prn : decodeBytes opcodeMap [0b01000111#8, 0b00000101#8, 0b11111111#8] = .ok (.prn 5#8) := rfl
theorem test_decode_hlt : decodeBytes opcodeMap [0b00000001#8, 0b11111111#8, 0b11111111#8] = .ok .hlt := rfl
theorem test_decode_mul : decodeBytes opcodeMap [0b10100010#8, 0b00000010#8, 0b00000011#8] = .ok (.mul 2#8 3#8) := rfl
theorem test_decode_cmp : decodeBytes opcodeMap [0b10100111#8, 0b00000000#8, 0b00001000#8] = .ok (.cmp 0#8 8#8) := rfl
theorem test_decode_jmp : decodeBytes opcodeMap [0b01010100#8, 0b00000001#8, 0b00000000#8] = .ok (.jmp 1#8) := rfl
theorem test_decode_jeq : decodeBytes opcodeMap [0b01010101#8, 0b00000011#8, 0b00000000#8] = .ok (.jeq 3#8) := rfl
theorem test_decode_jne : decodeBytes opcodeMap [0b01010110#8, 0b11111111#8, 0b00000000#8] = .ok (.jne 255#8) := rfl

/-- R54: 0x00, 0xFF and the LS-8 ADD value are illegal. -/
theorem test_decode_rejects :
    decode opcodeMap 0x00#8 0#8 0#8 = .error (.unsupportedOpcode 0x00#8) ∧
    decode opcodeMap 0xFF#8 0#8 0#8 = .error (.unsupportedOpcode 0xFF#8) ∧
    decode opcodeMap 0xA0#8 0#8 1#8 = .error (.unsupportedOpcode 0xA0#8) ∧
    decodeBytes opcodeMap [0x01#8, 0#8] = .error .tooFewBytes := ⟨rfl, rfl, rfl, rfl⟩

/-- The first byte of an instruction is bits 7 to 0 of its word; bits from nbits up are zero. -/
theorem test_decodeTableWord : decodeTableWord 24 0x0802_82 = some (.ldi 2#8 8#8) ∧
    decodeTableWord 16 0xFF_03_55 = some (.jeq 3#8) ∧ decodeTableWord 8 0x01 = some .hlt ∧
    decodeTableWord 8 0x00 = none := by decide

/-- R58's spelling. -/
theorem test_toAsm : toAsm (.ldi 0#8 8#8) = "LDI R0, 8" ∧ toAsm (.mul 0#8 1#8) = "MUL R0, R1" ∧
    toAsm (.jne 255#8) = "JNE R255" := by decide

/-! ### The instructions (95_test_vectors.md section 2) -/

/-- `82 07 FF`: x7=255, pc=3. -/
theorem test_ldi : (after (step (at_ 0 [0x82#8, 7#8, 0xFF#8]))).x[7] = 255#8 ∧
    (after (step (at_ 0 [0x82#8, 7#8, 0xFF#8]))).pc = 3 := by decide

/-- `82 08 05`: FAULTED InvalidRegister(8), pc=0. -/
theorem test_ldi_invalid : (after (step (at_ 0 [0x82#8, 8#8, 5#8]))).fault = some (.invalidRegister 8#8) ∧
    (after (step (at_ 0 [0x82#8, 8#8, 5#8]))).pc = 0 := by decide

/-- pc=3, x0=8, `47 00`: out=[8], pc=5. -/
theorem test_prn : (after (step (at_ 3 [0x47#8, 0#8] (x0 := 8#8)))).out = [8#8] ∧
    (after (step (at_ 3 [0x47#8, 0#8] (x0 := 8#8)))).pc = 5 := by decide

/-- `47 08`: FAULTED InvalidRegister(8), out unchanged. -/
theorem test_prn_invalid : (after (step (at_ 0 [0x47#8, 8#8]))).fault = some (.invalidRegister 8#8) ∧
    (after (step (at_ 0 [0x47#8, 8#8]))).out = [] := by decide

/-- pc=5, `01`: HALTED, pc=6. -/
theorem test_hlt : (after (step (at_ 5 [0x01#8]))).runState = .halted ∧ (after (step (at_ 5 [0x01#8]))).pc = 6 := by
  decide

/-- pc=254, `01 xx`: FAULTED AddressOutOfRange(256), pc=254. -/
theorem test_hlt_at_254 : (after (step (at_ 254 [0x01#8, 7#8]))).fault = some (.addressOutOfRange 256) ∧
    (after (step (at_ 254 [0x01#8, 7#8]))).pc = 254 := by decide

/-- x0=16, x1=17 (not in the vectors, 272 mod 256 by hand), pc=6, flags kept. -/
theorem test_mul : (after (step (flagged false false true (at_ 6 [0xA2#8, 0#8, 1#8] 16#8 17#8)))).x[0] = 16#8 ∧
    (after (step (flagged false false true (at_ 6 [0xA2#8, 0#8, 1#8] 16#8 17#8)))).flags = ⟨false, false, true⟩ := by
  decide

/-- `A2 09 0A`: FAULTED InvalidRegister(9). -/
theorem test_mul_invalid : (after (step (at_ 0 [0xA2#8, 9#8, 10#8]))).fault = some (.invalidRegister 9#8) := by decide

/-- x0=0, x1=255, `A7 00 01`: (0,0,1), pc+3. -/
theorem test_cmp : (after (step (at_ 12 [0xA7#8, 0#8, 1#8] 0#8 255#8))).flags = ⟨false, false, true⟩ ∧
    (after (step (at_ 12 [0xA7#8, 0#8, 1#8] 0#8 255#8))).pc = 15 := by decide

/-- (E,G,L)=(1,0,0), `A7 00 08`: FAULTED InvalidRegister(8), flags still (1,0,0). -/
theorem test_cmp_invalid :
    (after (step (flagged true false false (at_ 0 [0xA7#8, 0#8, 8#8])))).fault = some (.invalidRegister 8#8) ∧
    (after (step (flagged true false false (at_ 0 [0xA7#8, 0#8, 8#8])))).flags = ⟨true, false, false⟩ := by decide

/-- x1=16, pc=9, `54 01`: pc=16. -/
theorem test_jmp : (after (step (at_ 9 [0x54#8, 1#8] (x1 := 16#8)))).pc = 16 := by decide

/-- x0=254, `54 00`: pc=254. -/
theorem test_jmp_to_254 : (after (step (at_ 0 [0x54#8, 0#8] (x0 := 254#8)))).pc = 254 := by decide

/-- E=1, x1=18, pc=15, `55 01`: pc=18; with E=0: pc=17. -/
theorem test_jeq : (after (step (flagged true false false (at_ 15 [0x55#8, 1#8] (x1 := 18#8))))).pc = 18 ∧
    (after (step (flagged false false true (at_ 15 [0x55#8, 1#8] (x1 := 18#8))))).pc = 17 := by decide

/-- E=0, pc=0, `55 09`: pc=2 and no fault. -/
theorem test_jeq_not_taken_invalid : (after (step (at_ 0 [0x55#8, 9#8]))).pc = 2 ∧
    (after (step (at_ 0 [0x55#8, 9#8]))).fault = none := by decide

/-- E=0, G=1, x1=18, pc=15, `56 01`: pc=18; with E=1: pc=17. -/
theorem test_jne : (after (step (flagged false true false (at_ 15 [0x56#8, 1#8] (x1 := 18#8))))).pc = 18 ∧
    (after (step (flagged true false false (at_ 15 [0x56#8, 1#8] (x1 := 18#8))))).pc = 17 := by decide

/-- E=0, pc=0, `56 09`: FAULTED InvalidRegister(9). -/
theorem test_jne_invalid : (after (step (at_ 0 [0x56#8, 9#8]))).fault = some (.invalidRegister 9#8) := by decide

/-! ### ALU, cycle, host -/

/-- The ADD vectors of section 2.1. -/
theorem test_aluAdd : aluAdd 250#8 10#8 = 4#8 ∧ aluAdd 255#8 1#8 = 0#8 ∧ aluAdd 128#8 128#8 = 0#8 ∧
    aluAdd 100#8 27#8 = 127#8 := by decide

/-- The MUL and CMP vectors of section 2.1. -/
theorem test_aluMul_aluCmp : aluMul 15#8 17#8 = 255#8 ∧ aluMul 250#8 10#8 = 196#8 ∧ aluMul 255#8 255#8 = 1#8 ∧
    aluCmp 5#8 4#8 = ⟨false, true, false⟩ ∧ aluCmp 0#8 0#8 = ⟨true, false, false⟩ := by decide

/-- Section 2.6: `FF` at 255 and at 254 reports the address, at 253 the opcode. -/
theorem test_fault_order :
    (after (step (at_ 255 [0xFF#8]))).fault = some (.addressOutOfRange 256) ∧
    (after (step (at_ 254 [0xFF#8, 0#8]))).fault = some (.addressOutOfRange 256) ∧
    (after (step (at_ 253 [0xFF#8, 0#8, 0#8]))).fault = some (.unsupportedOperation 0xFF#8) := by decide

/-- The boot of a one-byte image (R106): its write and `start` lead to the launch state. -/
theorem test_boot : core.run 2 (bootState [0x01#8]) = .next (launch [0x01#8]) := rfl

/-- The ports after P6's fault: kind 3, info 0xFF, FAULTED. -/
theorem test_ports : faultKind (after (step (at_ 3 [0xFF#8]))) = 3#2 ∧
    faultInfo (after (step (at_ 3 [0xFF#8]))) = 0xFF#9 ∧ runStateCode (after (step (at_ 3 [0xFF#8]))) = 3#2 := by decide

/-- R99: 0, 42 and 255 as text. -/
theorem test_renderOut : renderOut [0#8, 42#8, 255#8] =
    [0x30#8, 0x0A#8, 0x34#8, 0x32#8, 0x0A#8, 0x32#8, 0x35#8, 0x35#8, 0x0A#8] := by decide

/-- R38: a write at 256 sets `host_wr_err` and no cell. -/
theorem test_hostWrite_256 : (hostWrite 256 7#8 State.reset).hostWrErr = true ∧
    (hostWrite 256 7#8 State.reset).mem = [] ∧ (hostWrite 255 7#8 State.reset).mem = [(255, 7#8)] := by decide

/-- A word of the table runs as the very next step, from reset. -/
theorem test_withFetchWord : (after (step (State.reset.withFetchWord 24 0xFF0782))).x[7] = 255#8 ∧
    (after (step (State.reset.withFetchWord 8 0x01))).runState = .halted := by decide

/-! ### Witnesses: for each statement with hypotheses, states and operands that meet them all, at the boundary
of each clause -/

/-- RUNNING at `pc` on the default map's LDI R7, 5. -/
def ldiAt (pc : Nat) : State := at_ pc [0x82#8, 7#8, 5#8]

theorem ldiAt_inv : (ldiAt 0).Inv where
  mem_wf := by decide
  pc_le := by decide
  sp_const := by decide
  flags_exclusive := by decide
  fault_iff := by decide
  load_fresh := by decide

theorem witness_ResetLeavesTheSpecsValues : 255 < 256 ∧ (7#8).toNat < 8 := by decide

theorem witness_AluRefusesTheFourthSelect : (∀ op, 3#2 ≠ aluSelect op) ∧ 2#2 = aluSelect .cmp :=
  ⟨fun op => by cases op <;> decide, rfl⟩

theorem witness_DecoderRejectsExactlyTheOtherOpcodes : 0x00#8 ∉ opcodeMap.values ∧ 0x56#8 ∈ opcodeMap.values := by
  decide

theorem witness_HostResetRestoresEveryField :
    (setInputs [.reset, .start] (ldiAt 0)).inputs = .reset :: [.start] := rfl

theorem witness_EveryStepKeepsTheInvariant : (ldiAt 0).Inv ∧ ∃ t, stepWith opcodeMap (ldiAt 0) = .next t :=
  ⟨ldiAt_inv, _, rfl⟩

theorem witness_EveryReachableStateMeetsTheInvariant :
    ∃ t, (coreWith opcodeMap).run 3 (setInputs [.write 2#9 8#8, .start, .reset] State.reset) = .next t := ⟨_, rfl⟩

theorem witness_EveryStepKeepsTheEndShown : (ldiAt 0).Inv ∧ (ldiAt 0).EndShown opcodeMap ∧
    ∃ t, stepWith opcodeMap (ldiAt 0) = .next t :=
  ⟨ldiAt_inv, ⟨fun _ h => (nomatch h), fun h => (nomatch h)⟩, _, rfl⟩

/-- The states after a fault of each kind and after HLT show their ends. -/
theorem witness_EndShown_addressOutOfRange : (after (step (at_ 254 [0x01#8, 0#8]))).EndShown opcodeMap where
  fault_shown := by intro f h; cases Option.some.inj h; exact ⟨rfl, by decide, by decide⟩
  halt_shown := by decide

theorem witness_EndShown_unsupportedOperation : (after (step (at_ 253 [0xFF#8]))).EndShown opcodeMap where
  fault_shown := by intro f h; cases Option.some.inj h; exact ⟨by decide, rfl, by decide⟩
  halt_shown := by decide

theorem witness_EndShown_invalidRegister : (after (step (at_ 253 [0xA2#8, 7#8, 8#8]))).EndShown opcodeMap where
  fault_shown := by
    intro f h; cases Option.some.inj h; exact ⟨by decide, by decide, .mul 7#8 8#8, rfl, rfl, by decide⟩
  halt_shown := by decide

theorem witness_EndShown_halted : (after (step (at_ 253 [0x01#8]))).EndShown opcodeMap where
  fault_shown := fun _ h => nomatch h
  halt_shown := by decide

/-- Each of the transitions of R20 happens. -/
theorem witness_RunStateChangesOnlyAsListed :
    (after (step (setInputs [.reset] (ldiAt 0)))).runState = .load ∧
    (after (step (setInputs [.start] State.reset))).runState = .running ∧
    (after (step (at_ 253 [0x01#8]))).runState = .halted ∧
    (after (step (at_ 0 [0x00#8]))).runState = .faulted ∧ (after (step (ldiAt 0))).runState = .running := by decide

theorem witness_EndedRunStaysEndedUntilReset :
    let s := setInputs [.start, .write 3#9 7#8, .reset] (setRunState .halted (ldiAt 0))
    (s.runState = .halted ∨ s.runState = .faulted) ∧ HostMove.reset ∉ s.inputs.take 2 ∧
    ((setRunState .faulted s).runState = .halted ∨ (setRunState .faulted s).runState = .faulted) := by decide

theorem witness_NoCycleRunsOutsideRunning :
    State.reset.runState ≠ .running ∧ State.reset.inputs = [] ∧
    (setRunState .halted (ldiAt 0)).runState ≠ .running ∧ (setRunState .faulted (ldiAt 0)).runState ≠ .running := by
  decide

theorem witness_JumpToItselfNeverEnds : let s := at_ 253 [0x54#8, 0#8] (x0 := 253#8)
    s.runState = .running ∧ s.inputs = [] ∧ s.pc ≤ 253 ∧ s.decodeAtPc opcodeMap = .ok (.jmp 0#8) ∧
    readReg 0#8 s = .ok (BitVec.ofNat 8 s.pc) := ⟨rfl, rfl, by decide, rfl, rfl⟩

theorem witness_MemoriesThatReadAlikeAreEqual : let p : Memory := putCell (putCell [] 255 1#8) 0 2#8
    let q : Memory := putCell (putCell [] 0 2#8) 255 1#8
    p.wf ∧ q.wf ∧ ∀ a, memRead p a = memRead q a := ⟨by decide, by decide, fun _ => rfl⟩

theorem witness_MemoryReadAndWriteContract : Memory.wf [(255, 1#8)] ∧ 255 < 256 ∧ 254 ≠ 255 ∧ 256 ≤ 256 := by decide

theorem witness_ReadReturnsTheLatestWrite :
    (∀ w ∈ [(255, 1#8), (0, 2#8), (255, 3#8)], (w : Nat × Byte).1 < 256) ∧ 255 < 256 := by decide

theorem witness_RegisterIndexIsTheWholeByte : (7#8).toNat < 8 ∧ (0#8 : Byte) ≠ 7#8 ∧ 8 ≤ (8#8).toNat ∧
    8 ≤ (255#8).toNat := by decide

/-- For AluAddWrapsModulo256, AluMulKeepsTheLowByte, AluCmpSetsExactlyOneFlag, MulMultipliesModulo256 and
CmpComparesUnsigned: both indices valid, the first invalid, only the second invalid. -/
theorem witness_TwoRegisterIndices : ((7#8).toNat < 8 ∧ (0#8).toNat < 8) ∧ 8 ≤ (8#8).toNat ∧
    ((7#8).toNat < 8 ∧ 8 ≤ (8#8).toNat) := by decide

theorem witness_DecodeOfEncodeIsTheInstruction : opcodeMap.wf ∧ { opcodeMap with mul := 0x00#8 }.wf := by decide

theorem witness_EncodeOfDecodeIsTheBytes : decode opcodeMap 0x54#8 1#8 9#8 = .ok (.jmp 1#8) := rfl

theorem witness_TwoHundredFortyEightOpcodesAreIllegal : opcodeMap.wf := by decide

theorem witness_UnusedOperandBytesDoNotMatter :
    (decode opcodeMap 0x47#8 5#8 9#8 = .ok (.prn 5#8) ∧ (Instr.prn 5#8).length ≤ 2) ∧
    (decode opcodeMap 0x01#8 5#8 9#8 = .ok .hlt ∧ Instr.hlt.length = 1) := ⟨⟨rfl, by decide⟩, rfl, rfl⟩

theorem witness_StepRunsTheDecodedInstruction : let s := ldiAt 253
    s.runState = .running ∧ s.coreHasTurn ∧ (setInputs [.idle, .reset] s).coreHasTurn ∧ s.pc ≤ 253 ∧
    s.decodeAtPc opcodeMap = .ok (.ldi 7#8 5#8) := ⟨rfl, .inl rfl, .inr rfl, by decide, rfl⟩

theorem witness_FetchReadsThreeBytesOrFaults : (ldiAt 0).runState = .running ∧ (ldiAt 0).inputs = [] ∧
    256 ≤ (ldiAt 256).pc ∧ (ldiAt 255).pc + 1 = 256 ∧ (ldiAt 254).pc + 2 = 256 ∧ (ldiAt 253).pc + 2 < 256 := by decide

/-- Each opcode at 253, and one outside the map. -/
theorem witness_DispatchSelectsByOpcodeOrFaults : opcodeMap.wf ∧ (ldiAt 253).runState = .running ∧
    (ldiAt 253).inputs = [] ∧ (ldiAt 253).pc ≤ 253 ∧
    opcodeMap.values.all (fun op => decide (cellAt (at_ 253 [op]).mem 253 = op)) = true ∧
    cellAt (at_ 253 [0xFF#8]).mem 253 ∉ opcodeMap.values := by decide

theorem witness_FaultingCycleWritesOnlyTheRecord : (at_ 253 [0xFF#8]).runState = .running ∧
    (at_ 253 [0xFF#8]).coreHasTurn ∧ ∃ t, stepWith opcodeMap (at_ 253 [0xFF#8]) = .next t ∧ t.runState = .faulted :=
  ⟨rfl, .inl rfl, _, rfl, rfl⟩

theorem witness_FirstFaultIsReported :
    ((ldiAt 254).runState = .running ∧ (ldiAt 254).inputs = [] ∧ (ldiAt 254).fault = none ∧ 254 ≤ (ldiAt 254).pc) ∧
    ((at_ 253 [0xFF#8]).pc ≤ 253 ∧ cellAt (at_ 253 [0xFF#8]).mem (at_ 253 [0xFF#8]).pc ∉ opcodeMap.values) ∧
    (at_ 253 [0xA2#8, 9#8, 10#8]).decodeAtPc opcodeMap = .ok (.mul 9#8 10#8) ∧
    (at_ 253 [0xA7#8, 7#8, 8#8]).decodeAtPc opcodeMap = .ok (.cmp 7#8 8#8) :=
  ⟨by decide, by decide, rfl, rfl⟩

theorem witness_LdiLoadsTheImmediate : opcodeMap.wf ∧ (7#8).toNat < 8 ∧ 8 ≤ (8#8).toNat ∧
    (ldiAt 253).runState = .running ∧ (ldiAt 253).inputs = [] ∧ (ldiAt 253).pc = 253 ∧
    cellAt (ldiAt 253).mem 253 = 0x82#8 ∧ (cellAt (ldiAt 253).mem 254).toNat < 8 ∧
    254 ≤ (ldiAt 254).pc ∧ (ldiAt 255).pc ≤ 255 ∧ (at_ 0 [0x82#8, 0#8, 8#8]).pc = 0 ∧
    cellAt (at_ 0 [0x82#8, 0#8, 8#8]).mem 0 = 0x82#8 ∧ cellAt (at_ 0 [0x82#8, 0#8, 8#8]).mem 1 = 0#8 ∧
    cellAt (at_ 0 [0x82#8, 0#8, 8#8]).mem 2 = 8#8 := by decide

theorem witness_PrnEmitsTheRegister : opcodeMap.wf ∧ (7#8).toNat < 8 ∧ 8 ≤ (8#8).toNat ∧
    (∃ t, exec (.prn 7#8) (ldiAt 0) = .next t ∧ t.out ≠ (ldiAt 0).out) ∧
    (at_ 3 [0x47#8, 0#8] (x0 := 8#8)).runState = .running ∧ (at_ 3 [0x47#8, 0#8] (x0 := 8#8)).inputs = [] ∧
    cellAt (at_ 3 [0x47#8, 0#8] (x0 := 8#8)).mem 3 = 0x47#8 ∧ cellAt (at_ 3 [0x47#8, 0#8] (x0 := 8#8)).mem 4 = 0#8 ∧
    readReg 0#8 (at_ 3 [0x47#8, 0#8] (x0 := 8#8)) = .ok 8#8 :=
  ⟨by decide, by decide, by decide, ⟨_, rfl, by decide⟩, rfl, rfl, rfl, rfl, rfl⟩

theorem witness_HltHalts : opcodeMap.wf ∧ (at_ 253 [0x01#8]).runState = .running ∧ (at_ 253 [0x01#8]).inputs = [] ∧
    (at_ 253 [0x01#8]).pc ≤ 253 ∧ cellAt (at_ 253 [0x01#8]).mem (at_ 253 [0x01#8]).pc = 0x01#8 ∧
    254 ≤ (at_ 254 [0x01#8]).pc ∧ (at_ 255 [0x01#8]).pc ≤ 255 := by decide

/-- For JmpReplacesThePc, JeqJumpsWhenEqual and JneJumpsWhenNotEqual: E set and clear, an index valid and not. -/
theorem witness_Jumps : (flagged true false false (ldiAt 0)).flags.e = true ∧
    (flagged false true false (ldiAt 0)).flags.e = false ∧ (7#8).toNat < 8 ∧ 8 ≤ (8#8).toNat := by decide

theorem witness_InvalidRegisterIsRaisedExactlyWhereListed : 8 ≤ (8#8).toNat ∧ (ldiAt 0).fault = none := by decide

theorem witness_LdiAndMulWriteOneRegister : (∃ t, exec (.ldi 7#8 8#8) (ldiAt 0) = .next t) ∧
    (∃ t, exec (.mul 7#8 8#8) (ldiAt 0) = .next t) ∧ (0#8 : Byte) ≠ 7#8 := ⟨⟨_, rfl⟩, ⟨_, rfl⟩, by decide⟩

theorem witness_CmpWritesOnlyFlags : ∃ t, exec (.cmp 7#8 0#8) (ldiAt 0) = .next t := ⟨_, rfl⟩

theorem witness_JumpsWriteOnlyThePc : (∃ t, exec (.jmp 7#8) (ldiAt 0) = .next t) ∧
    (∃ t, exec (.jeq 8#8) (ldiAt 0) = .next t) ∧ ∃ t, exec (.jne 8#8) (ldiAt 0) = .next t :=
  ⟨⟨_, rfl⟩, ⟨_, rfl⟩, _, rfl⟩

theorem witness_PrnAndHltWriteNoRegister : (∃ t, exec (.prn 7#8) (ldiAt 0) = .next t) ∧
    (∃ t, exec (.prn 8#8) (ldiAt 0) = .next t) ∧ ∃ t, exec .hlt (ldiAt 0) = .next t := ⟨⟨_, rfl⟩, ⟨_, rfl⟩, _, rfl⟩

/-- A cycle of CMP and the host's reset change flags. -/
theorem witness_OnlyCmpWritesTheFlags :
    (∃ t, stepWith opcodeMap (at_ 253 [0xA7#8, 7#8, 0#8]) = .next t ∧ t.flags ≠ (at_ 253 [0xA7#8, 7#8, 0#8]).flags) ∧
    ∃ t, stepWith opcodeMap (setInputs [.reset] (flagged true false false (ldiAt 0))) = .next t ∧
      t.flags ≠ (flagged true false false (ldiAt 0)).flags := ⟨⟨_, rfl, by decide⟩, _, rfl, by decide⟩

theorem witness_ExactlyOneFlagFromTheFirstCmpOn :
    ((7#8).toNat < 8 ∧ (0#8).toNat < 8 ∧ ∃ t, exec (.cmp 7#8 0#8) (ldiAt 0) = .next t) ∧
    (∃ t, stepWith opcodeMap (flagged false true false (ldiAt 0)) = .next t) ∧
    (flagged false true false (ldiAt 0)).inputs.head? ≠ some .reset ∧
    (flagged false true false (ldiAt 0)).flags = ⟨false, true, false⟩ ∧
    Flags.exclusive ⟨false, true, false⟩ = true :=
  ⟨⟨by decide, by decide, _, rfl⟩, ⟨_, rfl⟩, by decide, rfl, rfl⟩

/-- A host write in LOAD changes memory. -/
theorem witness_OnlyTheHostWritesMemory : (∃ t, exec .hlt (ldiAt 0) = .next t) ∧
    ∃ t, stepWith opcodeMap (setInputs [.write 255#9 1#8] State.reset) = .next t ∧ t.mem ≠ State.reset.mem :=
  ⟨⟨_, rfl⟩, _, rfl, by decide⟩

/-- A cycle that completes, one that faults, and a step of the host. -/
theorem witness_PcAdvancesOrJumps : (∃ t, stepWith opcodeMap (ldiAt 253) = .next t ∧ (ldiAt 253).coreHasTurn ∧
      (ldiAt 253).runState = .running ∧ t.runState ≠ .faulted) ∧
    (∃ t, stepWith opcodeMap (ldiAt 254) = .next t ∧ (ldiAt 254).inputs.head? ≠ some .reset ∧ t.runState = .faulted) ∧
    ∃ t, stepWith opcodeMap (setInputs [.start] State.reset) = .next t ∧
      ¬ ((setInputs [.start] State.reset).coreHasTurn ∧ (setInputs [.start] State.reset).runState = .running) :=
  ⟨⟨_, rfl, .inl rfl, rfl, by decide⟩, ⟨_, rfl, by decide, rfl⟩, _, rfl, by decide⟩

/-- A PRN that completes; the other steps append nothing. -/
theorem witness_OnlyPrnAppendsToTheLog : ∃ t, stepWith opcodeMap (at_ 253 [0x47#8, 7#8]) = .next t ∧
    (at_ 253 [0x47#8, 7#8]).inputs.head? ≠ some .reset ∧ outEvents (at_ 253 [0x47#8, 7#8]) t = [0#8] :=
  ⟨_, rfl, by decide, by decide⟩

theorem witness_StackPointerIsNeverRead : (ldiAt 0).inputs.head? ≠ some .reset ∧
    ∃ t, stepWith opcodeMap (ldiAt 0) = .next t := ⟨by decide, _, rfl⟩

theorem witness_LatchesCarryNothing : ∃ t, stepWith opcodeMap (ldiAt 255) = .next t := ⟨_, rfl⟩

theorem witness_GreaterAndLessAreNeverRead : ∃ t, stepWith opcodeMap (at_ 0 [0x56#8, 7#8]) = .next t := ⟨_, rfl⟩

theorem witness_LoadPortWritesInLoadOnly : let s := setInputs [.write 255#9 1#8] State.reset
    s.mem.wf ∧ s.inputs = .write 255#9 1#8 :: [] ∧ s.runState = .load ∧ (255#9).toNat < 256 ∧
    (setInputs [.write 256#9 1#8] s).inputs = .write 256#9 1#8 :: [] ∧ 256 ≤ (256#9).toNat ∧
    (setRunState .running s).runState ≠ .load := by decide

theorem witness_StartRunsAndRegisterWritesAreRefused :
    (setInputs [.start] State.reset).inputs = .start :: [] ∧ State.reset.runState = .load ∧ (ldiAt 0).runState ≠ .load ∧
    (setInputs [.writeReg 0#8 1#8] State.reset).inputs = .writeReg 0#8 1#8 :: [] ∧
    (setInputs [.writePc 1#9] State.reset).inputs = .writePc 1#9 :: [] ∧
    (setInputs [.writeSp 1#8] State.reset).inputs = .writeSp 1#8 :: [] ∧
    (setInputs [.writeFlags ⟨true, false, false⟩] State.reset).inputs = .writeFlags ⟨true, false, false⟩ :: [] := by decide

theorem witness_HostSeesTheStateOutsideRunning : (∃ o, observe State.reset = some o) ∧
    (takeFault (.addressOutOfRange 256) (ldiAt 0)).fault = some (.addressOutOfRange 256) ∧ 256 < 512 ∧
    (takeFault (.invalidRegister 255#8) (ldiAt 0)).fault = some (.invalidRegister 255#8) ∧
    (takeFault (.unsupportedOperation 0#8) (ldiAt 0)).fault = some (.unsupportedOperation 0#8) :=
  ⟨⟨_, rfl⟩, rfl, by decide, rfl, rfl⟩

/-- For LaunchStateHoldsTheImage and BootReachesTheLaunchState: an image that fills memory. -/
theorem witness_Images : (List.replicate 256 (1#8 : Byte)).length ≤ 256 :=
  Nat.le_of_eq List.length_replicate

theorem witness_RenderedOutputTellsTheLog : renderOut [8#8, 15#8] = renderOut [8#8, 15#8] := rfl

end Sys2Proof.Tests
end

section
/-!
PROOFS. The register file (R14): what a read returns after a write to the same and to another register, and
the obligation about the register index.
-/
namespace Sys2Proof.Machine

/-- A register reads back what was written to it (R14). -/
theorem readReg_set_same {i : Byte} (h : i.toNat < 8) (v : Byte) (s : State) :
    readReg i { s with x := s.x.set i.toNat v h } = .ok v := by
  rw [readReg_of_lt h, Vector.getElem_set_self]

/-- A write to one register leaves every other index reading as before, the invalid ones too: indices are
whole bytes, so two different ones never name the same register (R14). -/
theorem readReg_set_other {i j : Byte} (hji : j ≠ i) (h : i.toNat < 8) (v : Byte) (s : State) :
    readReg j { s with x := s.x.set i.toNat v h } = readReg j s := by
  rcases Nat.lt_or_ge j.toNat 8 with hj | hj
  · have hne : i.toNat ≠ j.toNat := fun e => hji (BitVec.eq_of_toNat_eq e.symm)
    rw [readReg_of_lt hj, readReg_of_lt hj, Vector.getElem_set_ne _ _ hne]
  · rw [readReg_of_le hj, readReg_of_le hj]

/-- Settles O16: below 8 by the rules for a read after a write, from 8 on by the rules for the fault. -/
theorem registerIndexIsTheWholeByte : Obligations.RegisterIndexIsTheWholeByte := by
  intro i v s
  constructor
  · intro h
    exact ⟨readReg_of_lt h s, _, writeReg_of_lt h v s, readReg_set_same h v s,
      fun j hji => readReg_set_other hji h v s, rfl⟩
  · intro h
    exact ⟨readReg_of_le h s, writeReg_of_le h v s⟩

end Sys2Proof.Machine
end

section
/-!
PROOFS. Memory (R30, R36): what a read returns after a write to the same and to another address, what each
phase of a step leaves of memory, and the two obligations about memory.
-/
namespace Sys2Proof.Machine

/-- A cell of the 256 reads back what was written to it (R30). -/
theorem memRead_putCell_same {mem : Memory} (h : mem.wf) {a : Nat} (ha : a < 256) (v : Byte) :
    memRead (putCell mem a v) a = .ok v := by
  rw [memRead_of_lt ha, cellAt_putCell h.1, if_pos rfl]

/-- A write to one address leaves every other address reading as before, those above memory too (R30). -/
theorem memRead_putCell_other {mem : Memory} (h : mem.wf) {a b : Nat} (hba : b ≠ a) (v : Byte) :
    memRead (putCell mem a v) b = memRead mem b := by
  rcases Nat.lt_or_ge b 256 with hb | hb
  · rw [memRead_of_lt hb, memRead_of_lt hb, cellAt_putCell h.1, if_neg hba]
  · rw [memRead_of_le hb, memRead_of_le hb]

/-- Settles O14: below 256 by the rules for a read after a write, from 256 on by the rules for the error. -/
theorem memoryReadAndWriteContract : Obligations.MemoryReadAndWriteContract := by
  intro mem a v hmem
  constructor
  · intro ha
    exact ⟨memRead_of_lt ha mem, _, memWrite_of_lt ha mem v, memRead_putCell_same hmem ha v,
      fun b hba => memRead_putCell_other hmem hba v⟩
  · intro ha
    exact ⟨memRead_of_le ha mem, memWrite_of_le ha mem v⟩

/-- No instruction's effect is on memory (R36). -/
theorem Effect.mem_eq {i : Instr} {s t : State} (h : Effect s t i) : t.mem = s.mem := by
  cases i with
  | ldi ra imm => obtain ⟨_, rfl⟩ := h; rfl
  | prn ra => obtain ⟨_, rfl⟩ := h; rfl
  | hlt => cases h; rfl
  | mul ra rb => obtain ⟨_, _, rfl⟩ := h; rfl
  | cmp ra rb => obtain ⟨_, _, rfl⟩ := h; rfl
  | jmp ra => obtain ⟨_, rfl⟩ := h; rfl
  | jeq ra => obtain ⟨_, _, rfl⟩ | ⟨_, rfl⟩ := h <;> rfl
  | jne ra => obtain ⟨_, _, rfl⟩ | ⟨_, rfl⟩ := h <;> rfl

/-- The execute phase keeps memory, whether it completes or faults (R36). -/
theorem exec_mem {i : Instr} {s t : State} (h : exec i s = .next t) : t.mem = s.mem := by
  obtain ⟨_, _, _, _, rfl⟩ | heffect := exec_cases h
  · rfl
  · exact heffect.mem_eq

/-- The fetch phase writes latches only, also where it ends in a fault (R68, R69). -/
theorem fetch_mem (s : State) : (fetch s).1.mem = s.mem := by
  obtain ⟨_, hf⟩ | ⟨_, hf⟩ | ⟨_, hf⟩ | ⟨_, hf⟩ := fetch_cases s <;> rw [hf] <;> rfl

/-- Filling the latches is no write of memory (R69). -/
@[simp] theorem latched_mem (s : State) : (latched s).mem = s.mem := rfl

/-- A cycle keeps memory: its fetch, its fault entry and its execute phase do (R36). -/
theorem cycle_mem {m : OpcodeMap} {s t : State} (h : cycle m s = .next t) : t.mem = s.mem := by
  obtain ⟨u, f, hf, rfl⟩ | ⟨_, _, ⟨why, _, rfl⟩ | ⟨i, _, hexec⟩⟩ := cycle_cases h
  · have hu := fetch_mem s
    rwa [hf] at hu
  · rfl
  · exact (exec_mem hexec).trans (latched_mem s)

/-- The CORE's turn keeps memory in every run state (R36). -/
theorem coreTurn_mem {m : OpcodeMap} {s t : State} (h : coreTurn m s = .next t) : t.mem = s.mem := by
  unfold coreTurn at h
  split at h
  · exact cycle_mem h
  · cases h; rfl

/-- A write through the load port changes memory only in LOAD and only below 256 (R37, R38, R39). -/
theorem load_and_lt_of_hostWrite_mem_ne {a : Nat} {v : Byte} {s : State}
    (h : (hostWrite a v s).mem ≠ s.mem) : s.runState = .load ∧ a < 256 := by
  unfold hostWrite at h
  split at h
  · next hload =>
    refine ⟨hload, Nat.lt_of_not_ge fun ha => h ?_⟩
    rw [memWrite_of_le ha]
    rfl
  · exact absurd rfl h

/-- A move of the host that changes memory is the reset or an admitted write of the load port (R100). -/
theorem hostMove_mem_ne {move : HostMove} {s : State} (h : (hostMove move s).mem ≠ s.mem) :
    move = .reset ∨ (s.runState = .load ∧ ∃ a v, move = .write a v ∧ a.toNat < 256) := by
  cases move with
  | reset => exact .inl rfl
  | write a v =>
    obtain ⟨hload, ha⟩ := load_and_lt_of_hostWrite_mem_ne h
    exact .inr ⟨hload, a, v, rfl, ha⟩
  | start =>
    have hstart : (hostStart s).mem = s.mem := by unfold hostStart; split <;> rfl
    exact absurd hstart h
  | idle | writeReg _ _ | writePc _ | writeSp _ | writeFlags _ => exact absurd rfl h

/-- Settles O47: the execute phase keeps memory, and a step that changes it is not the CORE's turn but a move
of the host, of which only two kinds reach memory. -/
theorem onlyTheHostWritesMemory : Obligations.OnlyTheHostWritesMemory := by
  refine ⟨fun _ _ _ => exec_mem, fun m s t hstep hne => ?_⟩
  obtain ⟨_, hturn⟩ | ⟨move, hhead, _, rfl⟩ := stepWith_cases hstep
  · exact absurd (coreTurn_mem hturn) hne
  · obtain rfl | ⟨hload, a, v, rfl, ha⟩ := hostMove_mem_ne hne
    · exact .inl hhead
    · exact .inr ⟨hload, a, v, hhead, ha⟩

end Sys2Proof.Machine
end

section
/-!
PROOFS. The ALU (R61, R63, R64): what each operation answers for valid and for invalid register indices, the
algebra of the low byte, and the two obligations about MUL and CMP.
-/
namespace Sys2Proof.Machine

/-- An invalid first index is raised by every operation, whatever the second is (R61). -/
theorem alu_aluSelect_of_le (op : AluOp) {a : Byte} (ha : 8 ≤ a.toNat) (b : Byte) (s : State) :
    alu (aluSelect op) a b s = .error (.invalidRegister a) := by
  rw [alu_aluSelect, aluApply, withRegs_of_le ha]

/-- An invalid second index is raised by every operation once the first is valid (R61). -/
theorem alu_aluSelect_of_lt_of_le (op : AluOp) {a b : Byte} (ha : a.toNat < 8) (hb : 8 ≤ b.toNat)
    (s : State) : alu (aluSelect op) a b s = .error (.invalidRegister b) := by
  rw [alu_aluSelect, aluApply, withRegs_of_lt_of_le ha hb]

/-- One invalid index is enough for a fault. -/
theorem exists_alu_aluSelect_error (op : AluOp) {a b : Byte} (h : 8 ≤ a.toNat ∨ 8 ≤ b.toNat) (s : State) :
    ∃ f, alu (aluSelect op) a b s = .error f := by
  rcases Nat.lt_or_ge a.toNat 8 with ha | ha
  · have hb : 8 ≤ b.toNat := h.resolve_left (Nat.not_le.mpr ha)
    exact ⟨_, alu_aluSelect_of_lt_of_le op ha hb s⟩
  · exact ⟨_, alu_aluSelect_of_le op ha b s⟩

/-- MUL on two registers writes the product to the first (R63). -/
theorem alu_mul_of_lt {a b : Byte} (ha : a.toNat < 8) (hb : b.toNat < 8) (s : State) :
    alu (aluSelect .mul) a b s =
      .ok { s with x := s.x.set a.toNat (aluMul s.x[a.toNat] s.x[b.toNat]) ha } := by
  rw [alu_aluSelect, aluApply, withRegs_of_lt ha hb]
  exact writeReg_of_lt ha _ s

/-- CMP on two registers writes the flags only (R64). -/
theorem alu_cmp_of_lt {a b : Byte} (ha : a.toNat < 8) (hb : b.toNat < 8) (s : State) :
    alu (aluSelect .cmp) a b s = .ok { s with flags := aluCmp s.x[a.toNat] s.x[b.toNat] } := by
  rw [alu_aluSelect, aluApply, withRegs_of_lt ha hb, setFlags]

theorem aluMul_comm (v w : Byte) : aluMul v w = aluMul w v := by
  rw [aluMul, aluMul, Nat.mul_comm]

@[simp] theorem aluMul_zero (v : Byte) : aluMul v 0#8 = 0#8 :=
  BitVec.eq_of_toNat_eq (aluMul_toNat v 0#8)

@[simp] theorem zero_aluMul (v : Byte) : aluMul 0#8 v = 0#8 := by
  rw [aluMul_comm, aluMul_zero]

/-- A byte compares equal to itself, and neither above nor below (R64). -/
theorem aluCmp_self (v : Byte) : aluCmp v v = { e := true, g := false, l := false } := if_pos rfl

/-- The instruction CMP turns what its ALU operation raises into fault entry (R85). -/
theorem exec_cmp_of_alu_error {a b : Byte} {s : State} {f : FaultRecord}
    (h : alu (aluSelect .cmp) a b s = .error f) : exec (.cmp a b) s = .next (takeFault f s) := by
  rw [exec, execCmp, h]
  rfl

/-- Settles O18: the answers of MUL for valid and invalid indices, then the algebra of `aluMul`; the fixed
products are evaluated. -/
theorem aluMulKeepsTheLowByte : Obligations.AluMulKeepsTheLowByte := by
  refine ⟨fun a b s => ⟨?_, ?_, ?_⟩, ?_, by decide⟩
  · intro ha hb
    exact ⟨_, aluMul_toNat _ _, rfl, alu_mul_of_lt ha hb s⟩
  · exact fun ha => alu_aluSelect_of_le .mul ha b s
  · exact fun ha hb => alu_aluSelect_of_lt_of_le .mul ha hb s
  · exact fun v w => ⟨aluMul_comm v w, zero_aluMul v, aluMul_zero v⟩

/-- Settles O19: the answers of CMP for valid and invalid indices, with `aluCmp_eq` for the flags bit by bit;
fault entry leaves the flags, and the fixed comparisons are evaluated. -/
theorem aluCmpSetsExactlyOneFlag : Obligations.AluCmpSetsExactlyOneFlag := by
  refine ⟨fun a b s => ⟨?_, ?_, ?_, ?_⟩, aluCmp_self, by decide⟩
  · intro ha hb
    refine ⟨_, alu_cmp_of_lt ha hb s, rfl, ?_⟩
    rw [aluCmp_eq]
    exact ⟨decide_eq_true_iff, decide_eq_true_iff, decide_eq_true_iff⟩
  · exact fun ha => alu_aluSelect_of_le .cmp ha b s
  · exact fun ha hb => alu_aluSelect_of_lt_of_le .cmp ha hb s
  · intro h
    obtain ⟨f, hf⟩ := exists_alu_aluSelect_error .cmp h s
    exact ⟨takeFault f s, exec_cmp_of_alu_error hf, takeFault_flags s f⟩

end Sys2Proof.Machine
end

section
/-!
PROOFS. The decoder by opcode (R51, R70): what a mapped opcode decodes to, and what every other byte does.
-/
namespace Sys2Proof

/-- An instruction's opcode, with its operand bytes in the two bytes that follow, decodes to it: the map's
opcodes are distinct, so no earlier comparison of R77's order matches. -/
theorem decode_opcodeOf {m : OpcodeMap} (hm : m.values.Nodup) {i : Instr} {opa opb : Byte}
    (hops : operandBytes i <+: [opa, opb]) : decode m (opcodeOf m i) opa opb = .ok i := by
  have hlater : m.values.reverse.Nodup := List.pairwise_reverse.mpr (hm.imp Ne.symm)
  simp only [OpcodeMap.values, List.reverse_cons, List.reverse_nil, List.nil_append, List.cons_append,
    List.nodup_cons, List.mem_cons, not_or] at hlater
  obtain ⟨_, hrest⟩ := hops
  cases i <;> cases hrest <;> simp only [decode, opcodeOf, hlater, ↓reduceIte]

/-- A byte that is no opcode of the map is rejected with itself (R54, R70). -/
theorem decode_of_notMem {m : OpcodeMap} {ir : Byte} (hir : ir ∉ m.values) (opa opb : Byte) :
    decode m ir opa opb = .error (.unsupportedOpcode ir) := by
  simp only [OpcodeMap.values, List.mem_cons, not_or] at hir
  simp only [decode, hir, ↓reduceIte]

end Sys2Proof
end

section
/-!
PROOFS. The cycle (R67 to R70): the fetch phase by `pc`, dispatch by opcode, and the two obligations about them.
-/
namespace Sys2Proof.Machine

/-! ### The fetch phase, by the highest address it reaches -/

theorem fetch_of_lt {s : State} (h : s.pc + 2 < 256) : fetch s = (latched s, none) :=
  ((fetch_cases s).resolve_right (by omega)).2

theorem fetch_of_le {s : State} (h : 256 ≤ s.pc) : fetch s = (s, some (.addressOutOfRange s.pc)) :=
  (((fetch_cases s).resolve_left (by omega)).resolve_right (by omega)).2

theorem fetch_of_add_one_eq {s : State} (h : s.pc + 1 = 256) :
    fetch s = (latchIr (cellAt s.mem s.pc) s, some (.addressOutOfRange (s.pc + 1))) :=
  ((((fetch_cases s).resolve_left (by omega)).resolve_left (by omega)).resolve_right (by omega)).2

theorem fetch_of_add_two_eq {s : State} (h : s.pc + 2 = 256) :
    fetch s = (latchOpa (cellAt s.mem (s.pc + 1)) (latchIr (cellAt s.mem s.pc) s),
      some (.addressOutOfRange (s.pc + 2))) :=
  ((((fetch_cases s).resolve_left (by omega)).resolve_left (by omega)).resolve_left (by omega)).2

/-! ### Dispatch, by opcode -/

/-- The opcode latch selects the instruction, its operand latches are the operands (R70). -/
theorem dispatch_of_opcodeOf {m : OpcodeMap} (hm : m.values.Nodup) {i : Instr} {t : State}
    (hir : t.ir = opcodeOf m i) (hops : operandBytes i <+: [t.opa, t.opb]) : dispatch m t = exec i t := by
  rw [dispatch, hir, decode_opcodeOf hm hops]

/-- An opcode latch outside the map ends in fault entry, with no instruction executed (R70). -/
theorem dispatch_of_notMem {m : OpcodeMap} {t : State} (hir : t.ir ∉ m.values) :
    dispatch m t = .next (takeFault (.unsupportedOperation t.ir) t) := by
  rw [dispatch, decode_of_notMem hir]
  rfl

/-! ### The step of a running machine that the host does not drive -/

/-- Such a step is one cycle (R67). -/
theorem stepWith_eq_cycle (m : OpcodeMap) {s : State} (hrun : s.runState = .running) (hin : s.inputs = []) :
    stepWith m s = cycle m s := by
  have hturn : s.coreHasTurn := .inl (by rw [hin]; rfl)
  rw [stepWith_of_coreHasTurn hturn, hin, List.tail_nil, setInputs_of_nil hin, coreTurn, if_pos hrun]

/-- A fault in the fetch is entered on the latches written so far, and nothing is decoded (R68, R69). -/
theorem stepWith_of_fetch_fault (m : OpcodeMap) {s u : State} {f : FaultRecord} (hrun : s.runState = .running)
    (hin : s.inputs = []) (hf : fetch s = (u, some f)) : stepWith m s = .next (takeFault f u) := by
  rw [stepWith_eq_cycle m hrun hin, cycle, hf]

/-- A fetch within memory is followed by dispatch on the filled latches (R70). -/
theorem stepWith_eq_dispatch (m : OpcodeMap) {s : State} (hrun : s.runState = .running) (hin : s.inputs = [])
    (hpc : s.pc + 2 < 256) : stepWith m s = dispatch m (latched s) := by
  rw [stepWith_eq_cycle m hrun hin, cycle, fetch_of_lt hpc]

/-- Settles O28, by the equation of the fetch phase for each of the four ranges of `pc`. -/
theorem fetchReadsThreeBytesOrFaults : Obligations.FetchReadsThreeBytesOrFaults := by
  intro m s hrun hin
  exact ⟨fun h => stepWith_of_fetch_fault m hrun hin (fetch_of_le h),
    fun h => stepWith_of_fetch_fault m hrun hin (fetch_of_add_one_eq h),
    fun h => stepWith_of_fetch_fault m hrun hin (fetch_of_add_two_eq h),
    fetch_of_lt⟩

/-- Settles O29: up to `pc` 253 the step is dispatch on the filled latches, which goes by the opcode. -/
theorem dispatchSelectsByOpcodeOrFaults : Obligations.DispatchSelectsByOpcodeOrFaults := by
  intro m s ⟨hm, _⟩ hrun hin hpc t ht
  have hstep : stepWith m s = dispatch m t := by
    rw [stepWith_eq_dispatch m hrun hin (by omega), ht]
    rfl
  rw [hstep]
  exact ⟨fun h => dispatch_of_opcodeOf (i := .ldi t.opa t.opb) hm h ⟨[], rfl⟩,
    fun h => dispatch_of_opcodeOf (i := .prn t.opa) hm h ⟨[t.opb], rfl⟩,
    fun h => dispatch_of_opcodeOf (i := .hlt) hm h ⟨[t.opa, t.opb], rfl⟩,
    fun h => dispatch_of_opcodeOf (i := .mul t.opa t.opb) hm h ⟨[], rfl⟩,
    fun h => dispatch_of_opcodeOf (i := .cmp t.opa t.opb) hm h ⟨[], rfl⟩,
    fun h => dispatch_of_opcodeOf (i := .jmp t.opa) hm h ⟨[t.opb], rfl⟩,
    fun h => dispatch_of_opcodeOf (i := .jeq t.opa) hm h ⟨[t.opb], rfl⟩,
    fun h => dispatch_of_opcodeOf (i := .jne t.opa) hm h ⟨[t.opb], rfl⟩,
    dispatch_of_notMem⟩

end Sys2Proof.Machine
end

section
/-!
PROOFS. The step that executes an instruction within memory, the fetch at the top of memory (R69, R70), and LDI
(R81).
-/
namespace Sys2Proof.Machine

theorem exec_ldi_of_lt {ra : Byte} (h : ra.toNat < 8) (imm : Byte) (s : State) :
    exec (.ldi ra imm) s = .next { s with x := s.x.set ra.toNat imm h, pc := s.pc + 3 } := by
  rw [exec, execLdi, writeReg_of_lt h]
  rfl

theorem exec_ldi_of_le {ra : Byte} (h : 8 ≤ ra.toNat) (imm : Byte) (s : State) :
    exec (.ldi ra imm) s = .next (takeFault (.invalidRegister ra) s) := by
  rw [exec, execLdi, writeReg_of_le h]
  rfl

/-- An instruction that lies at `pc` within memory is executed on the filled latches (R70). -/
theorem stepWith_of_instr_at_pc {m : OpcodeMap} (hm : m.values.Nodup) {s : State} (hrun : s.runState = .running)
    (hin : s.inputs = []) (hpc : s.pc + 2 < 256) {i : Instr} (hir : cellAt s.mem s.pc = opcodeOf m i)
    (hops : operandBytes i <+: [cellAt s.mem (s.pc + 1), cellAt s.mem (s.pc + 2)]) :
    stepWith m s = exec i (latched s) := by
  rw [stepWith_eq_dispatch m hrun hin hpc]
  exact dispatch_of_opcodeOf hm hir hops

/-- At 254 and 255 the fetch leaves memory at 256, whatever the opcode, and no instruction runs (R69). -/
theorem stepWith_of_254_le_of_le_255 (m : OpcodeMap) {s : State} (hrun : s.runState = .running)
    (hin : s.inputs = []) (hlo : 254 ≤ s.pc) (hhi : s.pc ≤ 255) :
    ∃ t, stepWith m s = .next t ∧ t.runState = .faulted ∧ t.fault = some (.addressOutOfRange 256) ∧
      t.x = s.x ∧ t.pc = s.pc := by
  have hpc : s.pc + 2 = 256 ∨ s.pc + 1 = 256 := by omega
  rcases hpc with h | h
  · refine ⟨_, stepWith_of_fetch_fault m hrun hin (fetch_of_add_two_eq h), rfl, ?_, rfl, rfl⟩
    rw [takeFault_fault, h]
  · refine ⟨_, stepWith_of_fetch_fault m hrun hin (fetch_of_add_one_eq h), rfl, ?_, rfl, rfl⟩
    rw [takeFault_fault, h]

/-- An LDI at `pc` with a valid index leaves the machine running past it, its register holding the immediate. -/
theorem stepWith_ldi {m : OpcodeMap} (hm : m.wf) {s : State} (hrun : s.runState = .running)
    (hin : s.inputs = []) (hpc : s.pc + 2 < 256) (hir : cellAt s.mem s.pc = 0x82#8) {ra imm : Byte}
    (hopa : cellAt s.mem (s.pc + 1) = ra) (hopb : cellAt s.mem (s.pc + 2) = imm) (hra : ra.toNat < 8) :
    ∃ t, stepWith m s = .next t ∧ t.pc = s.pc + 3 ∧ t.runState = .running ∧ t.inputs = [] ∧
      readReg ra t = .ok imm := by
  obtain ⟨hdistinct, hldi, _, _⟩ := hm
  have hstep : stepWith m s = exec (.ldi ra imm) (latched s) :=
    stepWith_of_instr_at_pc hdistinct hrun hin hpc (hir.trans hldi.symm) (by rw [hopa, hopb]; exact ⟨[], rfl⟩)
  exact ⟨_, hstep.trans (exec_ldi_of_lt hra imm _), rfl, hrun, hin,
    readReg_set_same hra imm (setPc (s.pc + 3) (latched s))⟩

/-- Settles O32: the execute phase by the register index, and the step by `pc`; an LDI at 253 runs, and the
fetch of the step after it is the one that faults. -/
theorem ldiLoadsTheImmediate : Obligations.LdiLoadsTheImmediate := by
  refine ⟨fun m ⟨hdistinct, hldi, _⟩ ra imm => ?_, fun ra imm s => ?_, fun m s hm hrun hin => ⟨?_, ?_, ?_⟩⟩
  · rw [← hldi]
    exact ⟨rfl, decode_opcodeOf (i := .ldi ra imm) hdistinct ⟨[], rfl⟩⟩
  · exact ⟨fun h => exec_ldi_of_lt h imm s, fun h => exec_ldi_of_le h imm s⟩
  · intro hpc hir hra
    obtain ⟨t, hstep, htpc, htrun, htin, hread⟩ := stepWith_ldi hm hrun hin (by omega) (by rw [hpc, hir])
      (by rw [hpc]) (by rw [hpc]) hra
    rw [hpc] at htpc
    have htop : 256 ≤ t.pc := Nat.le_of_eq htpc.symm
    refine ⟨t, _, hstep, htpc, htrun, hread, stepWith_of_fetch_fault m htrun htin (fetch_of_le htop), ?_, rfl⟩
    rw [takeFault_fault, htpc]
  · exact stepWith_of_254_le_of_le_255 m hrun hin
  · intro hpc hir hopa hopb
    obtain ⟨t, hstep, htpc, _, _, hread⟩ := stepWith_ldi hm hrun hin (by omega) (by rw [hpc, hir])
      (by rw [hpc, hopa]) (by rw [hpc, hopb]) (by decide)
    exact ⟨t, hstep, hread, by rw [htpc, hpc]⟩

end Sys2Proof.Machine
end

section
/-!
PROOFS. PRN (R82): its execute phase, the output events of a step, that no other instruction emits, and the
decimal digits of the host's text (R99).
-/
namespace Sys2Proof.Machine

/-- PRN emits what its register reads as (R82). -/
theorem exec_prn_of_readReg_ok {ra v : Byte} {s : State} (h : readReg ra s = .ok v) :
    exec (.prn ra) s = .next { s with out := s.out ++ [v], pc := s.pc + 2 } := by
  rw [exec, execPrn, withReg, h]
  rfl

/-- PRN raises the fault of its register read (R82). -/
theorem exec_prn_of_readReg_error {ra : Byte} {s : State} {f : FaultRecord} (h : readReg ra s = .error f) :
    exec (.prn ra) s = .next (takeFault f s) := by
  rw [exec, execPrn, withReg, h]
  rfl

/-- The events of a step are what it appended to the log (R99). -/
theorem outEvents_of_out_eq_append {s t : State} {vs : List Byte} (h : t.out = s.out ++ vs) :
    outEvents s t = vs := by
  rw [outEvents, h, List.drop_left]

/-- The effect of an instruction is on the log only where the instruction is PRN (R82). -/
theorem Effect.out_eq_or_prn {i : Instr} {s t : State} (h : Effect s t i) :
    t.out = s.out ∨ ∃ ra, i = .prn ra := by
  cases i with
  | prn ra => exact .inr ⟨ra, rfl⟩
  | ldi ra imm => obtain ⟨_, rfl⟩ := h; exact .inl rfl
  | hlt => cases h; exact .inl rfl
  | mul ra rb => obtain ⟨_, _, rfl⟩ := h; exact .inl rfl
  | cmp ra rb => obtain ⟨_, _, rfl⟩ := h; exact .inl rfl
  | jmp ra => obtain ⟨_, rfl⟩ := h; exact .inl rfl
  | jeq ra => obtain ⟨_, _, rfl⟩ | ⟨_, rfl⟩ := h <;> exact .inl rfl
  | jne ra => obtain ⟨_, _, rfl⟩ | ⟨_, rfl⟩ := h <;> exact .inl rfl

/-- An execute phase that changes the log is PRN's: fault entry keeps the log (R82, R93). -/
theorem exec_out_ne {i : Instr} {s t : State} (h : exec i s = .next t) (hne : t.out ≠ s.out) :
    ∃ ra, i = .prn ra := by
  obtain ⟨_, _, _, _, rfl⟩ | heffect := exec_cases h
  · exact absurd (takeFault_out ..) hne
  · exact heffect.out_eq_or_prn.resolve_left hne

/-- The decimal digits of a number below 1000, the first one first, as the host sink forms them (D13). -/
def decimalDigits (n : Nat) : List Nat :=
  if n < 10 then [n % 10]
  else if n < 100 then [n / 10 % 10, n % 10]
  else [n / 100 % 10, n / 10 % 10, n % 10]

theorem renderByte_eq_decimalDigits (v : Byte) :
    renderByte v = (decimalDigits v.toNat).map (fun d => BitVec.ofNat 8 (0x30 + d)) ++ [0x0A#8] := by
  simp only [renderByte, decimalDigits]
  split
  · rfl
  · split <;> rfl

theorem lt_ten_of_mem_decimalDigits {n d : Nat} (h : d ∈ decimalDigits n) : d < 10 := by
  unfold decimalDigits at h
  split at h
  · rw [List.mem_singleton] at h; omega
  · split at h <;> simp only [List.mem_cons, List.not_mem_nil, or_false] at h <;> omega

/-- The digits, read in base ten, are the number. -/
theorem foldl_decimalDigits {n : Nat} (h : n < 1000) :
    (decimalDigits n).foldl (fun n d => 10 * n + d) 0 = n := by
  unfold decimalDigits
  split
  · simp only [List.foldl_cons, List.foldl_nil]; omega
  · split <;> simp only [List.foldl_cons, List.foldl_nil] <;> omega

/-- Settles O33: the execute phase by what the register read answers, the log by the cases of the execute
phase, and the host's text by its decimal digits. -/
theorem prnEmitsTheRegister : Obligations.PrnEmitsTheRegister := by
  refine ⟨fun m ⟨hdistinct, _, hprn, _⟩ ra u => ?_, fun ra s => ⟨fun h => ?_, fun h => ?_⟩,
    fun _ _ _ => exec_out_ne, ?_, 0x0A#8, rfl, fun v => ?_⟩
  · rw [← hprn]
    exact ⟨rfl, decode_opcodeOf (i := .prn ra) hdistinct ⟨[u], rfl⟩⟩
  · exact ⟨_, exec_prn_of_readReg_ok (readReg_of_lt h s), rfl, outEvents_of_out_eq_append rfl⟩
  · exact exec_prn_of_readReg_error (readReg_of_le h s)
  · intro m s ⟨hdistinct, _, hprn, _⟩ hrun hin hpc hir hopa hread
    have hstep : stepWith m s = exec (.prn 0#8) (latched s) :=
      stepWith_of_instr_at_pc hdistinct hrun hin (by omega) (by rw [hpc, hir]; exact hprn.symm)
        (by rw [hpc, hopa]; exact ⟨[_], rfl⟩)
    have hlatched : readReg 0#8 (latched s) = .ok 8#8 := hread
    exact ⟨_, hstep.trans (exec_prn_of_readReg_ok hlatched), outEvents_of_out_eq_append rfl,
      congrArg (· + 2) hpc⟩
  · exact ⟨decimalDigits v.toNat, renderByte_eq_decimalDigits v, fun _ => lt_ten_of_mem_decimalDigits,
      foldl_decimalDigits (by omega)⟩

end Sys2Proof.Machine
end

section
/-!
PROOFS. Decode and encode (R46 to R58): they undo each other, the bytes that are no opcode, and the operand
bytes that do not matter.
-/
namespace Sys2Proof

/-- The opcode byte is the instruction's, and its operand bytes are the first of those that follow, as many as
the format has (R46, R47). -/
theorem opcodeOf_and_operandBytes_of_decode {m : OpcodeMap} {ir opa opb : Byte} {i : Instr}
    (h : decode m ir opa opb = .ok i) :
    opcodeOf m i = ir ∧ operandBytes i = [opa, opb].take (i.length - 1) := by
  obtain ⟨rfl, rfl⟩ | ⟨rfl, rfl⟩ | ⟨rfl, rfl⟩ | ⟨rfl, rfl⟩ | ⟨rfl, rfl⟩ | ⟨rfl, rfl⟩ | ⟨rfl, rfl⟩ | ⟨rfl, rfl⟩ :=
    decode_cases h <;> exact ⟨rfl, rfl⟩

/-- A comparison of the decoder that succeeds with some operands succeeds with others, branch by branch. -/
theorem eq_ok_of_ite_eq_ok {c : Prop} [Decidable c] {a a' b b' : Except Reject Instr} {i : Instr}
    (h : (if c then a else b) = .ok i) (ha : a = .ok i → a' = .ok i) (hb : b = .ok i → b' = .ok i) :
    (if c then a' else b') = .ok i := by
  by_cases hc : c
  · rw [if_pos hc] at h ⊢; exact ha h
  · rw [if_neg hc] at h ⊢; exact hb h

/-- What decodes is known by its operand bytes: any two bytes that begin with them decode to the same (R56).
The map need not be well-formed, as the comparisons that match are the same ones. -/
theorem decode_of_decode_of_operandBytes {m : OpcodeMap} {ir opa opb opa' opb' : Byte} {i : Instr}
    (h : decode m ir opa opb = .ok i) (hops : operandBytes i <+: [opa', opb']) :
    decode m ir opa' opb' = .ok i := by
  obtain ⟨_, hrest⟩ := hops
  unfold decode at h ⊢
  iterate 8
    refine eq_ok_of_ite_eq_ok h (fun h => ?_) fun h => ?_
    · cases h; cases hrest; rfl
  cases h

/-- Every opcode of the map decodes: if the first seven comparisons fail, the last one matches (R51). -/
theorem exists_decode_of_mem {m : OpcodeMap} {ir : Byte} (hir : ir ∈ m.values) (opa opb : Byte) :
    ∃ i, decode m ir opa opb = .ok i := by
  simp only [OpcodeMap.values, List.mem_cons, List.not_mem_nil, or_false] at hir
  unfold decode
  iterate 7
    split
    · exact ⟨_, rfl⟩
    rename_i hne
    replace hir := hir.resolve_left hne
  rw [if_pos hir]
  exact ⟨_, rfl⟩

/-- The decoder rejects a byte exactly if it is no opcode of the map, and names it (R51, R54). -/
theorem decode_eq_error_iff {m : OpcodeMap} {ir opa opb v : Byte} :
    decode m ir opa opb = .error (.unsupportedOpcode v) ↔ v = ir ∧ ir ∉ m.values := by
  constructor
  · intro h
    by_cases hir : ir ∈ m.values
    · obtain ⟨i, hi⟩ := exists_decode_of_mem hir opa opb
      rw [h] at hi
      cases hi
    · rw [decode_of_notMem hir] at h
      cases h
      exact ⟨rfl, hir⟩
  · rintro ⟨rfl, hir⟩
    exact decode_of_notMem hir opa opb

/-- The decoder accepts exactly the opcodes of the map (R51). -/
theorem toBool_decode (m : OpcodeMap) (ir opa opb : Byte) :
    (decode m ir opa opb).toBool = decide (ir ∈ m.values) := by
  by_cases hir : ir ∈ m.values
  · obtain ⟨i, hi⟩ := exists_decode_of_mem hir opa opb
    rw [hi, decide_eq_true hir]
    rfl
  · rw [decode_of_notMem hir, decide_eq_false hir]
    rfl

/-- The bytes among 0 to 255 that a list of distinct bytes holds are as many as it has. -/
theorem countP_range_ofNat_mem {l : List Byte} (h : l.Nodup) :
    (List.range 256).countP (fun n => decide (BitVec.ofNat 8 n ∈ l)) = l.length := by
  have hmap : (l.map BitVec.toNat).Nodup :=
    List.Pairwise.map BitVec.toNat (fun _ _ hne heq => hne (BitVec.eq_of_toNat_eq heq)) h
  have hperm : ((List.range 256).filter fun n => decide (BitVec.ofNat 8 n ∈ l)).Perm (l.map BitVec.toNat) := by
    refine (List.perm_ext_iff_of_nodup (List.nodup_range.filter _) hmap).mpr fun n => ?_
    rw [List.mem_filter, List.mem_range, decide_eq_true_iff, List.mem_map]
    constructor
    · rintro ⟨hn, hmem⟩
      exact ⟨_, hmem, BitVec.toNat_ofNat n 8 ▸ Nat.mod_eq_of_lt hn⟩
    · rintro ⟨v, hv, rfl⟩
      exact ⟨v.isLt, by rwa [BitVec.ofNat_toNat, BitVec.setWidth_eq]⟩
  rw [List.countP_eq_length_filter, hperm.length_eq, List.length_map]

/-- Settles O21: the opcode byte selects the instruction, and its operand bytes are the first of those that
follow it, whichever bytes fill up the three. -/
theorem decodeOfEncodeIsTheInstruction : Obligations.DecodeOfEncodeIsTheInstruction := by
  intro m ⟨hdistinct, _⟩ i u v
  obtain ⟨opa, opb, rest, hbytes, hops⟩ : ∃ opa opb rest, operandBytes i ++ [u, v] = opa :: opb :: rest ∧
      operandBytes i <+: [opa, opb] := by
    cases i <;> exact ⟨_, _, _, rfl, by simp [operandBytes]⟩
  rw [encode, List.cons_append, hbytes, decodeBytes, decode_opcodeOf hdistinct hops]

/-- Settles O22: format by format, the bytes taken are the opcode byte and the operand bytes. -/
theorem encodeOfDecodeIsTheBytes : Obligations.EncodeOfDecodeIsTheBytes := by
  intro m ir opa opb i h
  obtain ⟨rfl, hops⟩ := opcodeOf_and_operandBytes_of_decode h
  rw [encode, hops]
  cases i <;> rfl

/-- Settles O23. -/
theorem decoderRejectsExactlyTheOtherOpcodes : Obligations.DecoderRejectsExactlyTheOtherOpcodes :=
  fun _ _ _ _ => decode_eq_error_iff.trans (and_iff_right rfl)

/-- Settles O24: of the 256 bytes, the eight distinct ones of the map decode and the others do not. -/
theorem twoHundredFortyEightOpcodesAreIllegal : Obligations.TwoHundredFortyEightOpcodesAreIllegal := by
  intro m ⟨hdistinct, _⟩ opa opb
  have hlegal : _ = 8 := countP_range_ofNat_mem hdistinct
  have hall := List.length_eq_countP_add_countP (l := List.range 256)
    fun n => decide (BitVec.ofNat 8 n ∈ m.values)
  have hillegal : (fun n => !(decode m (BitVec.ofNat 8 n) opa opb).toBool) =
      fun n => decide ¬ decide (BitVec.ofNat 8 n ∈ m.values) = true := by
    funext n
    rw [toBool_decode, decide_not, Bool.decide_eq_true]
  rw [hlegal, List.length_range] at hall
  rw [hillegal, ← List.countP_eq_length_filter]
  omega

/-- Settles O25: a format of two bytes has one operand byte, and a format of one byte has none. -/
theorem unusedOperandBytesDoNotMatter : Obligations.UnusedOperandBytesDoNotMatter := by
  intro m ir opa opb opa' opb' i h
  obtain ⟨_, hops⟩ := opcodeOf_and_operandBytes_of_decode h
  constructor <;> intro hlen <;> refine decode_of_decode_of_operandBytes h ?_
  · have hcount : i.length - 1 = 0 ∨ i.length - 1 = 1 := by omega
    rcases hcount with hcount | hcount <;> rw [hops, hcount] <;> exact ⟨_, rfl⟩
  · rw [hops, hlen]
    exact ⟨_, rfl⟩

/-- Settles O26. -/
theorem defaultMapReadsTheTablesWords : Obligations.DefaultMapReadsTheTablesWords :=
  ⟨rfl, rfl, rfl, rfl, rfl, rfl, rfl, rfl, rfl⟩

end Sys2Proof
end

section
/-!
PROOFS. What a step can do, said once over the state before it: a move of the host, a wait, fault entry with its
cause, or the effect of the instruction at `pc`. What each of these leaves unchanged, field by field.
-/
namespace Sys2Proof.Machine

/-! ### The moves of the host (R100) -/

theorem hostWrite_frame (a : Nat) (v : Byte) (s : State) :
    hostWrite a v s =
      { s with mem := (hostWrite a v s).mem, hostWrErr := (hostWrite a v s).hostWrErr } := by
  unfold hostWrite
  split
  · split <;> rfl
  · rfl

theorem hostWrite_runState (a : Nat) (v : Byte) (s : State) : (hostWrite a v s).runState = s.runState :=
  (congrArg State.runState (hostWrite_frame a v s)).trans rfl

theorem hostStart_of_load {s : State} (h : s.runState = .load) : hostStart s = setRunState .running s := if_pos h

theorem hostStart_of_ne_load {s : State} (h : s.runState ≠ .load) : hostStart s = s := if_neg h

/-- A move other than `reset` reaches memory, the run state and `host_wr_err` only (R100). -/
theorem hostMove_frame {move : HostMove} (h : move ≠ .reset) (s : State) :
    hostMove move s = { s with mem := (hostMove move s).mem, runState := (hostMove move s).runState,
                               hostWrErr := (hostMove move s).hostWrErr } := by
  cases move with
  | reset => exact absurd rfl h
  | write a v =>
    rw [hostMove, hostWrite_runState]
    exact hostWrite_frame a.toNat v s
  | start =>
    by_cases hload : s.runState = .load
    · rw [hostMove, hostStart_of_load hload]; rfl
    · rw [hostMove, hostStart_of_ne_load hload]
  | idle | writeReg _ _ | writePc _ | writeSp _ | writeFlags _ => rfl

section
variable {move : HostMove} (h : move ≠ .reset) (s : State)
include h

theorem hostMove_pc : (hostMove move s).pc = s.pc := by rw [hostMove_frame h s]

theorem hostMove_sp : (hostMove move s).sp = s.sp := by rw [hostMove_frame h s]

theorem hostMove_flags : (hostMove move s).flags = s.flags := by rw [hostMove_frame h s]

theorem hostMove_out : (hostMove move s).out = s.out := by rw [hostMove_frame h s]

theorem hostMove_fault : (hostMove move s).fault = s.fault := by rw [hostMove_frame h s]

end

/-- A move changes the run state only as `reset`, or as `start` in LOAD (R20). -/
theorem hostMove_runState (move : HostMove) (s : State) :
    (hostMove move s).runState = s.runState ∨ move = .reset ∨
      (move = .start ∧ s.runState = .load ∧ (hostMove move s).runState = .running) := by
  cases move with
  | reset => exact .inr (.inl rfl)
  | write a v => exact .inl (hostWrite_runState a.toNat v s)
  | start =>
    by_cases hload : s.runState = .load
    · exact .inr (.inr ⟨rfl, hload, congrArg State.runState (hostStart_of_load hload)⟩)
    · exact .inl (congrArg State.runState (hostStart_of_ne_load hload))
  | idle | writeReg _ _ | writePc _ | writeSp _ | writeFlags _ => exact .inl rfl

/-- Outside LOAD a move other than `reset` has no effect (R20, R39, R100). -/
theorem hostMove_of_ne_load {move : HostMove} {s : State} (hload : s.runState ≠ .load) (h : move ≠ .reset) :
    hostMove move s = s := by
  cases move with
  | reset => exact absurd rfl h
  | write a v => exact if_neg hload
  | start => exact hostStart_of_ne_load hload
  | idle | writeReg _ _ | writePc _ | writeSp _ | writeFlags _ => rfl

/-! ### The effect of an instruction, field by field -/

/-- An instruction's effect is on the registers, `pc`, the flags, the log and the run state only. -/
theorem Effect.frame {i : Instr} {s t : State} (h : Effect s t i) :
    t = { s with x := t.x, pc := t.pc, flags := t.flags, out := t.out, runState := t.runState } := by
  cases i with
  | ldi _ _ | prn _ | jmp _ => obtain ⟨_, rfl⟩ := h; rfl
  | mul _ _ | cmp _ _ => obtain ⟨_, _, rfl⟩ := h; rfl
  | hlt => cases h; rfl
  | jeq _ | jne _ => obtain ⟨_, _, rfl⟩ | ⟨_, rfl⟩ := h <;> rfl

theorem Effect.sp_eq {i : Instr} {s t : State} (h : Effect s t i) : t.sp = s.sp := by rw [h.frame]

theorem Effect.fault_eq {i : Instr} {s t : State} (h : Effect s t i) : t.fault = s.fault := by rw [h.frame]

/-- The run state is HLT's to change (R20). -/
theorem Effect.runState_eq_or_hlt {i : Instr} {s t : State} (h : Effect s t i) :
    t.runState = s.runState ∨ (i = .hlt ∧ t.runState = .halted ∧ t.pc = s.pc + 1) := by
  cases i with
  | ldi _ _ | prn _ | jmp _ => obtain ⟨_, rfl⟩ := h; exact .inl rfl
  | mul _ _ | cmp _ _ => obtain ⟨_, _, rfl⟩ := h; exact .inl rfl
  | hlt => cases h; exact .inr ⟨rfl, rfl, rfl⟩
  | jeq _ | jne _ => obtain ⟨_, _, rfl⟩ | ⟨_, rfl⟩ := h <;> exact .inl rfl

/-- The flags are CMP's to change, with the comparison of two bytes (R18). -/
theorem Effect.flags_eq_or_cmp {i : Instr} {s t : State} (h : Effect s t i) :
    t.flags = s.flags ∨
      ∃ a b v w, i = .cmp a b ∧ a.toNat < 8 ∧ b.toNat < 8 ∧ t.flags = aluCmp v w := by
  cases i with
  | ldi _ _ | prn _ | jmp _ => obtain ⟨_, rfl⟩ := h; exact .inl rfl
  | mul _ _ => obtain ⟨_, _, rfl⟩ := h; exact .inl rfl
  | cmp ra rb => obtain ⟨ha, hb, rfl⟩ := h; exact .inr ⟨ra, rb, _, _, rfl, ha, hb, rfl⟩
  | hlt => cases h; exact .inl rfl
  | jeq _ | jne _ => obtain ⟨_, _, rfl⟩ | ⟨_, rfl⟩ := h <;> exact .inl rfl

/-- `pc` advances by the length, which JMP never does, or becomes what a jump's register reads as (R16). -/
theorem Effect.pc_advances_or_jumps {i : Instr} {s t : State} (h : Effect s t i) :
    (t.pc = s.pc + i.length ∧ ∀ r, i ≠ .jmp r) ∨
      ∃ r v, (i = .jmp r ∨ i = .jeq r ∨ i = .jne r) ∧ readReg r s = .ok v ∧ t.pc = v.toNat := by
  cases i with
  | ldi _ _ | prn _ => obtain ⟨_, rfl⟩ := h; exact .inl ⟨rfl, nofun⟩
  | mul _ _ | cmp _ _ => obtain ⟨_, _, rfl⟩ := h; exact .inl ⟨rfl, nofun⟩
  | hlt => cases h; exact .inl ⟨rfl, nofun⟩
  | jmp ra => obtain ⟨hra, rfl⟩ := h; exact .inr ⟨ra, _, by simp, readReg_of_lt hra s, rfl⟩
  | jeq ra | jne ra =>
    obtain ⟨_, hra, rfl⟩ | ⟨_, rfl⟩ := h
    · exact .inr ⟨ra, _, by simp, readReg_of_lt hra s, rfl⟩
    · exact .inl ⟨rfl, nofun⟩

/-- PRN appends what its register reads as, and no other instruction appends (R22). -/
theorem Effect.out_eq_or_append {i : Instr} {s t : State} (h : Effect s t i) :
    t.out = s.out ∨ ∃ r v, i = .prn r ∧ readReg r s = .ok v ∧ t.out = s.out ++ [v] := by
  obtain hout | ⟨r, rfl⟩ := h.out_eq_or_prn
  · exact .inl hout
  · obtain ⟨hr, rfl⟩ := h
    exact .inr ⟨r, _, rfl, readReg_of_lt hr s, rfl⟩

/-! ### The cases of a step -/

/-- Why the instruction at `pc` raises a fault (R89 to R93), from any `pc`. -/
def FaultRecord.CausedAt (m : OpcodeMap) (s : State) : FaultRecord → Prop
  | .addressOutOfRange a => 254 ≤ s.pc ∧ a = max 256 s.pc
  | .unsupportedOperation v => s.pc ≤ 253 ∧ v = cellAt s.mem s.pc ∧ v ∉ m.values
  | .invalidRegister r =>
    s.pc ≤ 253 ∧ 8 ≤ r.toNat ∧ ∃ i, s.decodeAtPc m = .ok i ∧ i.wf = false ∧ r ∈ operandBytes i

/-- The cases of a step from `s` to `t`. -/
inductive StepCase (m : OpcodeMap) (s t : State) : Prop
  /-- The host drives a move (R100). -/
  | hostMoves (move : HostMove) (hhead : s.inputs.head? = some move) (hmove : move ≠ .idle)
      (ht : t = hostMove move (setInputs s.inputs.tail s))
  /-- The CORE has its turn and no cycle runs (R67). -/
  | waits (hturn : s.coreHasTurn) (hrun : s.runState ≠ .running) (ht : t = setInputs s.inputs.tail s)
  /-- A cycle ends in fault entry (R93), with some of the latches written. -/
  | faults (hturn : s.coreHasTurn) (hrun : s.runState = .running) (f : FaultRecord) (ir opa opb : Byte)
      (hcause : f.CausedAt m s)
      (ht : t = { s with inputs := s.inputs.tail, ir := ir, opa := opa, opb := opb, fault := some f,
                         runState := .faulted })
  /-- A cycle completes the instruction at `pc` (R71). -/
  | completes (hturn : s.coreHasTurn) (hrun : s.runState = .running) (hpc : s.pc ≤ 253) (i : Instr)
      (hdecode : s.decodeAtPc m = .ok i) (heffect : Effect (latched (setInputs s.inputs.tail s)) t i)

/-- A fetch that faults has written latches only, and its address is the first one above memory (R68, R69). -/
theorem fetch_fault {s u : State} {f : FaultRecord} (h : fetch s = (u, some f)) :
    254 ≤ s.pc ∧ f = .addressOutOfRange (max 256 s.pc) ∧
      u = { s with ir := u.ir, opa := u.opa, opb := u.opb } := by
  obtain ⟨_, hf⟩ | ⟨hpc, hf⟩ | ⟨hpc, hf⟩ | ⟨hpc, hf⟩ := fetch_cases s <;> rw [hf] at h <;> cases h
  · exact ⟨by omega, by rw [Nat.max_eq_right hpc], rfl⟩
  · exact ⟨by omega, by rw [hpc, Nat.max_eq_left (by omega)], rfl⟩
  · exact ⟨by omega, by rw [hpc, Nat.max_eq_left (by omega)], rfl⟩

/-- Every step is one of the cases. -/
theorem stepCase_of_stepWith {m : OpcodeMap} {s t : State} (h : stepWith m s = .next t) : StepCase m s t := by
  obtain ⟨hturn, hcore⟩ | ⟨move, hhead, hmove, ht⟩ := stepWith_cases h
  · rw [coreTurn, setInputs_runState] at hcore
    split at hcore
    · next hrun =>
      obtain ⟨u, f, hf, rfl⟩ | ⟨hlt, _, hdispatch⟩ := cycle_cases hcore
      · obtain ⟨hpc, rfl, hu⟩ := fetch_fault hf
        exact .faults hturn hrun (.addressOutOfRange _) u.ir u.opa u.opb ⟨hpc, rfl⟩ (congrArg (takeFault _) hu)
      · have hpc : s.pc ≤ 253 := Nat.le_of_lt_succ (Nat.lt_sub_of_add_lt hlt)
        obtain ⟨⟨v⟩, hdecode, rfl⟩ | ⟨i, hdecode, hexec⟩ := hdispatch
        · obtain ⟨rfl, hv⟩ := decode_eq_error_iff.mp hdecode
          exact .faults hturn hrun (.unsupportedOperation _) _ _ _ ⟨hpc, rfl, hv⟩ rfl
        · obtain ⟨r, hr, hle, hwf, rfl⟩ | heffect := exec_cases hexec
          · exact .faults hturn hrun (.invalidRegister r) _ _ _ ⟨hpc, hle, i, hdecode, hwf, hr⟩ rfl
          · exact .completes hturn hrun hpc i hdecode heffect
    · next hrun =>
      cases hcore
      exact .waits hturn hrun rfl
  · exact .hostMoves move hhead hmove ht

end Sys2Proof.Machine
end

section
/-!
PROOFS. Reset, the invariant and the end of a run: every step answers a next state, and what holds at reset and is
kept by every step holds of every state a run reaches.
-/
namespace Sys2Proof.Machine

/-! ### Every step answers a next state -/

theorem exists_exec (i : Instr) (s : State) : ∃ t, exec i s = .next t := by
  cases i with
  | hlt => exact ⟨_, rfl⟩
  | ldi _ _ | prn _ | mul _ _ | cmp _ _ | jmp _ | jeq _ | jne _ => exact commit_next s _

theorem exists_dispatch (m : OpcodeMap) (s : State) : ∃ t, dispatch m s = .next t := by
  unfold dispatch
  split
  · next i _ => exact exists_exec i s
  · exact ⟨_, rfl⟩

theorem exists_coreTurn (m : OpcodeMap) (s : State) : ∃ t, coreTurn m s = .next t := by
  unfold coreTurn cycle
  split
  · split
    · exact ⟨_, rfl⟩
    · exact exists_dispatch m _
  · exact ⟨s, rfl⟩

/-- Settles O8: the CORE's turn and every move of the host answer a next state. -/
theorem everyStepAnswersANextState : Obligations.EveryStepAnswersANextState := by
  intro m s
  cases hhead : s.inputs.head? with
  | none => rw [stepWith_of_coreHasTurn (.inl hhead)]; exact exists_coreTurn m _
  | some move =>
    by_cases hidle : move = .idle
    · rw [stepWith_of_coreHasTurn (.inr (hidle ▸ hhead))]; exact exists_coreTurn m _
    · exact ⟨_, stepWith_of_move hhead hidle⟩

/-- What every step keeps, a run of any length keeps. -/
theorem run_keeps {m : OpcodeMap} {P : State → Prop} (hkeeps : ∀ s t, P s → stepWith m s = .next t → P t)
    {k : Nat} {s t : State} (hs : P s) (hrun : (coreWith m).run k s = .next t) : P t := by
  induction k generalizing s with
  | zero => cases hrun; exact hs
  | succ k ih =>
    obtain ⟨u, hstep⟩ := everyStepAnswersANextState m s
    rw [run_succ_of_step hstep] at hrun
    exact ih (hkeeps s u hs hstep) hrun

/-! ### Reset -/

/-- Settles O1: reset memory lists no cell, and each register, flag and port is evaluated. -/
theorem resetLeavesTheSpecsValues : Obligations.ResetLeavesTheSpecsValues := by
  refine ⟨fun a ha => memRead_of_lt ha _, fun i hi => ?_, by decide⟩
  rw [readReg_of_lt hi]
  exact congrArg _ (Vector.getElem_replicate hi)

/-- Settles O2. -/
theorem hostResetRestoresEveryField : Obligations.HostResetRestoresEveryField := by
  intro m s rest hin
  have hhead : s.inputs.head? = some .reset := by rw [hin]; rfl
  rw [stepWith_of_move hhead nofun, hin]
  rfl

/-- Settles O3. -/
theorem resetMeetsTheInvariant : Obligations.ResetMeetsTheInvariant where
  mem_wf := reset_mem_wf
  pc_le := Nat.zero_le _
  sp_const := rfl
  flags_exclusive := rfl
  fault_iff := iff_of_false nofun nofun
  load_fresh := fun _ => ⟨rfl, rfl, rfl, rfl⟩

/-- Settles O6. -/
theorem resetShowsNoEnd : Obligations.ResetShowsNoEnd := fun _ => ⟨nofun, nofun⟩

/-! ### The invariant -/

/-- A comparison sets exactly one flag (R18, R64). -/
theorem aluCmp_exactly_one (v w : Byte) :
    (aluCmp v w).exclusive = true ∧ ((aluCmp v w).e || (aluCmp v w).g || (aluCmp v w).l) = true := by
  unfold aluCmp
  split
  · exact ⟨rfl, rfl⟩
  · split <;> exact ⟨rfl, rfl⟩

/-- The invariant does not speak of the host's moves. -/
theorem State.Inv.setInputs {s : State} (hs : s.Inv) (ms : List HostMove) : (setInputs ms s).Inv :=
  { hs with }

theorem State.Inv.fault_eq_none {s : State} (hs : s.Inv) (h : s.runState ≠ .faulted) : s.fault = none :=
  Option.not_isSome_iff_eq_none.mp (mt hs.fault_iff.mp h)

theorem State.Inv.hostWrite {s : State} (hs : s.Inv) (a : Nat) (v : Byte) : (hostWrite a v s).Inv := by
  unfold Machine.hostWrite
  split
  · split
    · next hwrite => exact { hs with mem_wf := memWrite_wf hs.mem_wf hwrite }
    · exact { hs with }
  · exact hs

theorem State.Inv.hostStart {s : State} (hs : s.Inv) : (hostStart s).Inv := by
  by_cases hload : s.runState = .load
  · have hnone : s.fault = none := hs.fault_eq_none (by rw [hload]; nofun)
    rw [hostStart_of_load hload]
    exact { hs with fault_iff := iff_of_false (by simp [hnone]) nofun, load_fresh := nofun }
  · rwa [hostStart_of_ne_load hload]

/-- A move of the host keeps the invariant (R100). -/
theorem State.Inv.hostMove {s : State} (hs : s.Inv) (move : HostMove) : (hostMove move s).Inv := by
  cases move with
  | reset => exact resetMeetsTheInvariant.setInputs s.inputs
  | write a v => exact hs.hostWrite a.toNat v
  | start => exact hs.hostStart
  | idle | writeReg _ _ | writePc _ | writeSp _ | writeFlags _ => exact hs

/-- An instruction that is within memory leads to a `pc` of at most 256 (R73). -/
theorem Effect.pc_le {i : Instr} {s t : State} (h : Effect s t i) (hpc : s.pc ≤ 253) : t.pc ≤ 256 := by
  obtain ⟨hadv, _⟩ | ⟨_, v, _, _, hjump⟩ := h.pc_advances_or_jumps
  · have hlen : i.length ≤ 3 := by cases i <;> simp only [Instr.length] <;> omega
    omega
  · omega

/-- An instruction that completes keeps the invariant. -/
theorem State.Inv.effect {i : Instr} {s t : State} (hs : s.Inv) (hrun : s.runState = .running)
    (hpc : s.pc ≤ 253) (h : Effect s t i) : t.Inv := by
  have hfault : t.fault = none := h.fault_eq.trans (hs.fault_eq_none (by rw [hrun]; nofun))
  have htrun : t.runState = .running ∨ t.runState = .halted :=
    h.runState_eq_or_hlt.imp (·.trans hrun) (·.2.1)
  exact {
    mem_wf := h.mem_eq ▸ hs.mem_wf
    pc_le := h.pc_le hpc
    sp_const := h.sp_eq.trans hs.sp_const
    flags_exclusive := by
      obtain hflags | ⟨_, _, v, w, _, _, _, hflags⟩ := h.flags_eq_or_cmp
      · rw [hflags]; exact hs.flags_exclusive
      · rw [hflags]; exact (aluCmp_exactly_one v w).1
    fault_iff := by
      rw [hfault]
      exact iff_of_false nofun fun hf => by rcases htrun with h | h <;> rw [h] at hf <;> cases hf
    load_fresh := fun hl => by rcases htrun with h | h <;> rw [h] at hl <;> cases hl }

/-- Settles O4, by the cases of a step: a move of the host, a wait, fault entry, or an instruction's effect. -/
theorem everyStepKeepsTheInvariant : Obligations.EveryStepKeepsTheInvariant := by
  intro m s t hs hstep
  have hs' : (setInputs s.inputs.tail s).Inv := hs.setInputs _
  cases stepCase_of_stepWith hstep with
  | hostMoves move hhead hmove ht => exact ht ▸ hs'.hostMove move
  | waits hturn hrun ht => exact ht ▸ hs'
  | faults hturn hrun f ir opa opb hcause ht =>
    subst ht
    exact { hs with fault_iff := iff_of_true rfl rfl, load_fresh := nofun }
  | completes hturn hrun hpc i hdecode heffect =>
    have hlatched : (latched (setInputs s.inputs.tail s)).Inv := { hs with }
    exact hlatched.effect hrun hpc heffect

/-- Settles O5: the invariant holds at reset, whichever moves are to come, and every step keeps it. -/
theorem everyReachableStateMeetsTheInvariant : Obligations.EveryReachableStateMeetsTheInvariant :=
  fun m moves _ _ => run_keeps (everyStepKeepsTheInvariant m) (resetMeetsTheInvariant.setInputs moves)

/-! ### The end of a run -/

/-- The cause of a fault is shown by the state, as `pc` never exceeds 256 (R73, R90). -/
theorem FaultRecord.CausedAt.shownBy {m : OpcodeMap} {s : State} {f : FaultRecord} (h : f.CausedAt m s)
    (hpc : s.pc ≤ 256) : f.shownBy m s := by
  cases f with
  | addressOutOfRange a =>
    obtain ⟨hlo, rfl⟩ := h
    exact ⟨Nat.max_eq_left hpc, hlo, hpc⟩
  | unsupportedOperation v =>
    obtain ⟨hle, rfl, hv⟩ := h
    exact ⟨hle, rfl, hv⟩
  | invalidRegister r =>
    obtain ⟨hle, hr, hi⟩ := h
    exact ⟨hr, hle, hi⟩

/-- Without a fault record, outside HALTED, there is no end to show. -/
theorem endShown_of_not_ended {m : OpcodeMap} {s : State} (hfault : s.fault = none)
    (hrun : s.runState ≠ .halted) : s.EndShown m :=
  ⟨fun _ hf => (by rw [hfault] at hf; cases hf), fun h => absurd h hrun⟩

/-- A move of the host keeps what an ended run shows: outside LOAD it is `reset` or has no effect, and LOAD is no
end. -/
theorem State.EndShown.hostMove {m : OpcodeMap} {s : State} (h : s.EndShown m) (hs : s.Inv) (move : HostMove) :
    (hostMove move s).EndShown m := by
  by_cases hreset : move = .reset
  · subst hreset
    exact endShown_of_not_ended rfl nofun
  · by_cases hload : s.runState = .load
    · refine endShown_of_not_ended ?_ ?_
      · rw [hostMove_fault hreset, hs.fault_eq_none (by rw [hload]; nofun)]
      · obtain hrun | hmove | ⟨_, _, hrun⟩ := hostMove_runState move s
        · rw [hrun, hload]; nofun
        · exact absurd hmove hreset
        · rw [hrun]; nofun
    · rwa [hostMove_of_ne_load hload hreset]

/-- HALTED is shown by the opcode of the HLT that completed (R83). -/
theorem Effect.endShown {m : OpcodeMap} {i : Instr} {s t : State} (h : Effect s t i)
    (hs : s.Inv) (hrun : s.runState = .running) (hpc : s.pc ≤ 253) (hdecode : s.decodeAtPc m = .ok i) :
    t.EndShown m := by
  have hfault : t.fault = none := h.fault_eq.trans (hs.fault_eq_none (by rw [hrun]; nofun))
  obtain htrun | ⟨rfl, _, htpc⟩ := h.runState_eq_or_hlt
  · exact endShown_of_not_ended hfault (by rw [htrun, hrun]; nofun)
  · have hop : m.hlt = cellAt s.mem s.pc := (opcodeOf_and_operandBytes_of_decode hdecode).1
    refine ⟨fun _ hf => (by rw [hfault] at hf; cases hf), fun _ => ?_⟩
    rw [htpc, h.mem_eq, Nat.add_sub_cancel, hop]
    exact ⟨by omega, by omega, rfl⟩

/-- Settles O7, by the cases of a step: fault entry records what caused it, and HLT leaves its opcode behind. -/
theorem everyStepKeepsTheEndShown : Obligations.EveryStepKeepsTheEndShown := by
  intro m s t hs hshown hstep
  have hshown' : (setInputs s.inputs.tail s).EndShown m := ⟨hshown.fault_shown, hshown.halt_shown⟩
  cases stepCase_of_stepWith hstep with
  | hostMoves move hhead hmove ht => exact ht ▸ hshown'.hostMove (hs.setInputs _) move
  | waits hturn hrun ht => exact ht ▸ hshown'
  | faults hturn hrun f ir opa opb hcause ht =>
    subst ht
    refine ⟨fun g hg => ?_, nofun⟩
    cases hg
    exact hcause.shownBy hs.pc_le
  | completes hturn hrun hpc i hdecode heffect =>
    have hlatched : (latched (setInputs s.inputs.tail s)).Inv := { hs with }
    exact heffect.endShown hlatched hrun hpc hdecode

end Sys2Proof.Machine
end

section
/-!
PROOFS. The ALU's ADD and its op select (R62, R65), and MUL, CMP and the jumps (R84 to R88): what each answers for
valid and for invalid register indices, and where InvalidRegister is raised (R91).
-/
namespace Sys2Proof.Machine

/-! ### The ALU's interface -/

/-- ADD on two registers writes the sum to the first (R62). -/
theorem alu_add_of_lt {a b : Byte} (ha : a.toNat < 8) (hb : b.toNat < 8) (s : State) :
    alu (aluSelect .add) a b s =
      .ok { s with x := s.x.set a.toNat (aluAdd s.x[a.toNat] s.x[b.toNat]) ha } := by
  rw [alu_aluSelect, aluApply, withRegs_of_lt ha hb]
  exact writeReg_of_lt ha _ s

/-- With two valid indices no operation raises a fault (R61). -/
theorem exists_alu_aluSelect_ok (op : AluOp) {a b : Byte} (ha : a.toNat < 8) (hb : b.toNat < 8) (s : State) :
    ∃ t, alu (aluSelect op) a b s = .ok t ∧ t.fault = s.fault := by
  cases op with
  | add => exact ⟨_, alu_add_of_lt ha hb s, rfl⟩
  | mul => exact ⟨_, alu_mul_of_lt ha hb s, rfl⟩
  | cmp => exact ⟨_, alu_cmp_of_lt ha hb s, rfl⟩

/-- What an operation of the set raises is an invalid register index, never an unsupported operation (R61). -/
theorem alu_aluSelect_ne_unsupported (op : AluOp) (a b : Byte) (s : State) (v : Byte) :
    alu (aluSelect op) a b s ≠ .error (.unsupportedOperation v) := by
  rcases Nat.lt_or_ge a.toNat 8 with ha | ha
  · rcases Nat.lt_or_ge b.toNat 8 with hb | hb
    · obtain ⟨t, ht, _⟩ := exists_alu_aluSelect_ok op ha hb s
      rw [ht]; nofun
    · rw [alu_aluSelect_of_lt_of_le op ha hb]; nofun
  · rw [alu_aluSelect_of_le op ha]; nofun

/-- The select that names no operation is 3 (R65, D26). -/
theorem eq_three_of_forall_ne_aluSelect : ∀ {sel : BitVec 2}, (∀ op, sel ≠ aluSelect op) → sel = 3#2
  | 0#2, h => absurd rfl (h .add)
  | 1#2, h => absurd rfl (h .mul)
  | 2#2, h => absurd rfl (h .cmp)
  | 3#2, _ => rfl

/-- Settles O17: the answers of ADD for valid and for invalid indices; the worked example is evaluated. -/
theorem aluAddWrapsModulo256 : Obligations.AluAddWrapsModulo256 := by
  refine ⟨fun a b s => ⟨?_, ?_, ?_⟩, by decide⟩
  · exact fun ha hb => ⟨_, aluAdd_toNat _ _, alu_add_of_lt ha hb s⟩
  · exact fun ha => alu_aluSelect_of_le .add ha b s
  · exact fun ha hb => alu_aluSelect_of_lt_of_le .add ha hb s

/-- Settles O20: a select that names an operation never raises UnsupportedOperation, and the only other one is 3. -/
theorem aluRefusesTheFourthSelect : Obligations.AluRefusesTheFourthSelect := by
  intro sel a b s
  constructor
  · intro h
    rw [eq_three_of_forall_ne_aluSelect h]
    rfl
  · rintro h op rfl
    exact alu_aluSelect_ne_unsupported op a b s 3#8 h

/-! ### MUL and CMP -/

/-- The instruction MUL turns what its ALU operation raises into fault entry (R84). -/
theorem exec_mul_of_alu_error {a b : Byte} {s : State} {f : FaultRecord}
    (h : alu (aluSelect .mul) a b s = .error f) : exec (.mul a b) s = .next (takeFault f s) := by
  rw [exec, execMul, h]
  rfl

theorem exec_mul_of_lt {a b : Byte} (ha : a.toNat < 8) (hb : b.toNat < 8) (s : State) :
    exec (.mul a b) s = .next { s with x := s.x.set a.toNat (aluMul s.x[a.toNat] s.x[b.toNat]) ha,
                                       pc := s.pc + 3 } := by
  rw [exec, execMul, alu_mul_of_lt ha hb]
  rfl

theorem exec_cmp_of_lt {a b : Byte} (ha : a.toNat < 8) (hb : b.toNat < 8) (s : State) :
    exec (.cmp a b) s = .next { s with flags := aluCmp s.x[a.toNat] s.x[b.toNat], pc := s.pc + 3 } := by
  rw [exec, execCmp, alu_cmp_of_lt ha hb]
  rfl

/-- Settles O35. -/
theorem mulMultipliesModulo256 : Obligations.MulMultipliesModulo256 := by
  intro ra rb s
  exact ⟨fun ha hb => ⟨_, aluMul_toNat _ _, exec_mul_of_lt ha hb s⟩,
    fun ha => exec_mul_of_alu_error (alu_aluSelect_of_le .mul ha rb s),
    fun ha hb => exec_mul_of_alu_error (alu_aluSelect_of_lt_of_le .mul ha hb s)⟩

/-- Settles O36, with `aluCmp_eq` for the flags bit by bit. -/
theorem cmpComparesUnsigned : Obligations.CmpComparesUnsigned := by
  intro ra rb s
  refine ⟨fun ha hb => ?_, fun ha => exec_cmp_of_alu_error (alu_aluSelect_of_le .cmp ha rb s),
    fun ha hb => exec_cmp_of_alu_error (alu_aluSelect_of_lt_of_le .cmp ha hb s)⟩
  rw [exec_cmp_of_lt ha hb, aluCmp_eq]

/-! ### The jumps -/

theorem exec_jmp_of_lt {ra : Byte} (h : ra.toNat < 8) (s : State) :
    exec (.jmp ra) s = .next { s with pc := s.x[ra.toNat].toNat } := by
  rw [exec, execJmp, jumpReg, withReg_of_lt h]
  rfl

theorem exec_jmp_of_le {ra : Byte} (h : 8 ≤ ra.toNat) (s : State) :
    exec (.jmp ra) s = .next (takeFault (.invalidRegister ra) s) := by
  rw [exec, execJmp, jumpReg, withReg_of_le h]
  rfl

/-- A JEQ that is taken is a JMP (R87). -/
theorem exec_jeq_of_e {s : State} (he : s.flags.e = true) (ra : Byte) : exec (.jeq ra) s = exec (.jmp ra) s :=
  congrArg (commit s) (if_pos he)

/-- A JEQ that is not taken reads no register (D12). -/
theorem exec_jeq_of_not_e {s : State} (he : s.flags.e = false) (ra : Byte) :
    exec (.jeq ra) s = .next { s with pc := s.pc + 2 } :=
  congrArg (commit s) (if_neg (by rw [he]; decide))

/-- A JNE that is taken is a JMP (R88). -/
theorem exec_jne_of_not_e {s : State} (he : s.flags.e = false) (ra : Byte) :
    exec (.jne ra) s = exec (.jmp ra) s :=
  congrArg (commit s) (if_pos he)

/-- A JNE that is not taken reads no register (D12). -/
theorem exec_jne_of_e {s : State} (he : s.flags.e = true) (ra : Byte) :
    exec (.jne ra) s = .next { s with pc := s.pc + 2 } :=
  congrArg (commit s) (if_neg (by rw [he]; decide))

/-- Settles O37. -/
theorem jmpReplacesThePc : Obligations.JmpReplacesThePc :=
  fun _ s => ⟨fun h => exec_jmp_of_lt h s, fun h => exec_jmp_of_le h s⟩

/-- Settles O38: taken it is a JMP, not taken it only advances. -/
theorem jeqJumpsWhenEqual : Obligations.JeqJumpsWhenEqual :=
  fun ra s => ⟨fun he h => (exec_jeq_of_e he ra).trans (exec_jmp_of_lt h s),
    fun he h => (exec_jeq_of_e he ra).trans (exec_jmp_of_le h s), fun he => exec_jeq_of_not_e he ra⟩

/-- Settles O39: taken it is a JMP, not taken it only advances. -/
theorem jneJumpsWhenNotEqual : Obligations.JneJumpsWhenNotEqual :=
  fun ra s => ⟨fun he h => (exec_jne_of_not_e he ra).trans (exec_jmp_of_lt h s),
    fun he h => (exec_jne_of_not_e he ra).trans (exec_jmp_of_le h s), fun he => exec_jne_of_e he ra⟩

/-! ### Where InvalidRegister is raised -/

/-- The record an execute phase leaves, from the condition on which it faults. -/
theorem exists_exec_fault_eq_ite {c : Prop} [Decidable c] {i : Instr} {r : Byte} {s : State}
    (hs : s.fault = none) (hbad : c → exec i s = .next (takeFault (.invalidRegister r) s))
    (hgood : ¬ c → ∃ t, exec i s = .next t ∧ t.fault = s.fault) :
    ∃ t, exec i s = .next t ∧ t.fault = if c then some (.invalidRegister r) else none := by
  by_cases hc : c
  · exact ⟨_, hbad hc, (if_pos hc).symm⟩
  · obtain ⟨t, hexec, hfault⟩ := hgood hc
    exact ⟨t, hexec, by rw [if_neg hc, hfault, hs]⟩

/-- The record that an instruction of the ALU leaves: its first index is checked before its second (R97). -/
theorem exists_exec_alu_fault_eq_ite {op : AluOp} {i : Instr} {a b : Byte} {s : State} (hs : s.fault = none)
    (hi : exec i s = commit s ((alu (aluSelect op) a b s).map (advance 3))) :
    ∃ t, exec i s = .next t ∧ t.fault = if 8 ≤ a.toNat then some (.invalidRegister a)
      else if 8 ≤ b.toNat then some (.invalidRegister b) else none := by
  rw [hi]
  split
  · next ha => rw [alu_aluSelect_of_le op ha]; exact ⟨_, rfl, rfl⟩
  · next ha =>
    have ha := Nat.lt_of_not_le ha
    split
    · next hb => rw [alu_aluSelect_of_lt_of_le op ha hb]; exact ⟨_, rfl, rfl⟩
    · next hb =>
      obtain ⟨t, ht, hfault⟩ := exists_alu_aluSelect_ok op ha (Nat.lt_of_not_le hb) s
      rw [ht]
      exact ⟨_, rfl, hfault.trans hs⟩

/-- Settles O40, instruction by instruction. -/
theorem invalidRegisterIsRaisedExactlyWhereListed : Obligations.InvalidRegisterIsRaisedExactlyWhereListed := by
  refine ⟨fun i v s h => ⟨readReg_of_le h s, writeReg_of_le h v s⟩, fun s a b hs => ⟨?ldi, ?prn, ?hlt,
    exists_exec_alu_fault_eq_ite (op := .mul) hs rfl, exists_exec_alu_fault_eq_ite (op := .cmp) hs rfl,
    ?jmp, ?jeq, ?jne⟩⟩
  case ldi =>
    exact exists_exec_fault_eq_ite hs (fun h => exec_ldi_of_le h b s)
      fun h => ⟨_, exec_ldi_of_lt (Nat.lt_of_not_le h) b s, rfl⟩
  case prn =>
    exact exists_exec_fault_eq_ite hs (fun h => exec_prn_of_readReg_error (readReg_of_le h s))
      fun h => ⟨_, exec_prn_of_readReg_ok (readReg_of_lt (Nat.lt_of_not_le h) s), rfl⟩
  case hlt => exact ⟨_, rfl, hs⟩
  case jmp =>
    exact exists_exec_fault_eq_ite hs (fun h => exec_jmp_of_le h s)
      fun h => ⟨_, exec_jmp_of_lt (Nat.lt_of_not_le h) s, rfl⟩
  case jeq =>
    refine exists_exec_fault_eq_ite hs (fun ⟨he, h⟩ => (exec_jeq_of_e he a).trans (exec_jmp_of_le h s)) fun h => ?_
    cases he : s.flags.e with
    | false => exact ⟨_, exec_jeq_of_not_e he a, rfl⟩
    | true =>
      have ha : a.toNat < 8 := Nat.lt_of_not_le fun ha => h ⟨he, ha⟩
      exact ⟨_, (exec_jeq_of_e he a).trans (exec_jmp_of_lt ha s), rfl⟩
  case jne =>
    refine exists_exec_fault_eq_ite hs (fun ⟨he, h⟩ => (exec_jne_of_not_e he a).trans (exec_jmp_of_le h s))
      fun h => ?_
    cases he : s.flags.e with
    | true => exact ⟨_, exec_jne_of_e he a, rfl⟩
    | false =>
      have ha : a.toNat < 8 := Nat.lt_of_not_le fun ha => h ⟨he, ha⟩
      exact ⟨_, (exec_jne_of_not_e he a).trans (exec_jmp_of_lt ha s), rfl⟩

end Sys2Proof.Machine
end

section
/-!
PROOFS. The step and its cycle (R67 to R78, R93, R97): what a cycle runs, what it does on a fault, when the run state
changes, and runs that stay where they are.
-/
namespace Sys2Proof.Machine

/-! ### The cycle -/

/-- With the latches filled, dispatch executes what the bytes at `pc` decode to (R70). -/
theorem dispatch_latched_of_ok {m : OpcodeMap} {s : State} {i : Instr} (h : s.decodeAtPc m = .ok i) :
    dispatch m (latched s) = exec i (latched s) := by
  have hlatches : decode m (latched s).ir (latched s).opa (latched s).opb = .ok i := h
  simp only [dispatch, hlatches]

/-- With the latches filled, dispatch enters the fault of what the bytes at `pc` are rejected for (R70). -/
theorem dispatch_latched_of_error {m : OpcodeMap} {s : State} {why : Reject} (h : s.decodeAtPc m = .error why) :
    dispatch m (latched s) = .next (takeFault (rejectFault why) (latched s)) := by
  have hlatches : decode m (latched s).ir (latched s).opa (latched s).opb = .error why := h
  simp only [dispatch, hlatches]

/-- A running machine with the CORE's turn executes the instruction at `pc` (R71). -/
theorem stepWith_of_decodeAtPc {m : OpcodeMap} {s : State} {i : Instr} (hrun : s.runState = .running)
    (hturn : s.coreHasTurn) (hpc : s.pc ≤ 253) (hdecode : s.decodeAtPc m = .ok i) :
    stepWith m s = exec i (latched (setInputs s.inputs.tail s)) := by
  have hfetch : fetch (setInputs s.inputs.tail s) = (latched (setInputs s.inputs.tail s), none) :=
    fetch_of_lt (Nat.lt_of_le_of_lt (Nat.add_le_add_right hpc 2) (by decide))
  rw [stepWith_of_coreHasTurn hturn, coreTurn, setInputs_runState, if_pos hrun, cycle, hfetch]
  exact dispatch_latched_of_ok hdecode

/-- The CORE's turn and a driven move exclude each other. -/
theorem eq_idle_of_coreHasTurn {s : State} {move : HostMove} (hturn : s.coreHasTurn)
    (hhead : s.inputs.head? = some move) : move = .idle := by
  rcases hturn with h | h <;> rw [hhead] at h <;> cases h
  rfl

/-- A cycle ends in fault entry or completes the instruction at `pc`. -/
theorem faults_or_completes {m : OpcodeMap} {s t : State} (hrun : s.runState = .running) (hturn : s.coreHasTurn)
    (hstep : stepWith m s = .next t) :
    (∃ f ir opa opb, f.CausedAt m s ∧
      t = { s with inputs := s.inputs.tail, ir := ir, opa := opa, opb := opb, fault := some f,
                   runState := .faulted }) ∨
    (s.pc ≤ 253 ∧ ∃ i, s.decodeAtPc m = .ok i ∧ Effect (latched (setInputs s.inputs.tail s)) t i) := by
  cases stepCase_of_stepWith hstep with
  | hostMoves move hhead hmove ht => exact absurd (eq_idle_of_coreHasTurn hturn hhead) hmove
  | waits _ hwait _ => exact absurd hrun hwait
  | faults _ _ f ir opa opb hcause ht => exact .inl ⟨f, ir, opa, opb, hcause, ht⟩
  | completes _ _ hpc i hdecode heffect => exact .inr ⟨hpc, i, hdecode, heffect⟩

/-- A cycle that completes does not end in FAULTED (R20). -/
theorem Effect.runState_ne_faulted {i : Instr} {s t : State} (h : Effect s t i) (hrun : s.runState = .running) :
    t.runState ≠ .faulted := by
  obtain ht | ⟨_, ht, _⟩ := h.runState_eq_or_hlt
  · rw [ht, hrun]; nofun
  · rw [ht]; nofun

/-- Settles O27. -/
theorem stepRunsTheDecodedInstruction : Obligations.StepRunsTheDecodedInstruction :=
  ⟨fun _ _ _ hrun hturn hpc hdecode => stepWith_of_decodeAtPc hrun hturn hpc hdecode, fun _ => rfl⟩

/-- Settles O30: of the two ends of a cycle, only fault entry is in FAULTED. -/
theorem faultingCycleWritesOnlyTheRecord : Obligations.FaultingCycleWritesOnlyTheRecord := by
  intro m s t hrun hturn hstep hfaulted
  obtain ⟨f, ir, opa, opb, _, rfl⟩ | ⟨_, i, _, heffect⟩ := faults_or_completes hrun hturn hstep
  · exact ⟨f, rfl⟩
  · exact absurd hfaulted (heffect.runState_ne_faulted hrun)

/-- An opcode that decodes is in the map (R51). -/
theorem mem_values_of_decodeAtPc {m : OpcodeMap} {s : State} {i : Instr} (h : s.decodeAtPc m = .ok i) :
    cellAt s.mem s.pc ∈ m.values := by
  refine Decidable.byContradiction fun hir => ?_
  rw [State.decodeAtPc, decode_of_notMem hir] at h
  cases h

/-- Settles O31: above 253 the only cause is the address, at an opcode outside the map the only cause is the
opcode, and MUL and CMP leave the record of their ALU operation. -/
theorem firstFaultIsReported : Obligations.FirstFaultIsReported := by
  intro m s hrun hin hnone
  have hturn : s.coreHasTurn := .inl (by rw [hin]; rfl)
  obtain ⟨t, hstep⟩ := everyStepAnswersANextState m s
  refine ⟨t, hstep, fun hpc => ?_, fun hpc hir => ?_, fun a b hpc hdecode => ?_⟩
  · obtain ⟨f, ir, opa, opb, hcause, rfl⟩ | ⟨hle, _⟩ := faults_or_completes hrun hturn hstep
    · cases f with
      | addressOutOfRange a => exact congrArg (some ∘ FaultRecord.addressOutOfRange) hcause.2
      | unsupportedOperation v => exact absurd hcause.1 (by omega)
      | invalidRegister r => exact absurd hcause.1 (by omega)
    · omega
  · obtain ⟨f, ir, opa, opb, hcause, rfl⟩ | ⟨_, i, hi, _⟩ := faults_or_completes hrun hturn hstep
    · cases f with
      | addressOutOfRange a => exact absurd hcause.1 (by omega)
      | unsupportedOperation v => exact congrArg (some ∘ FaultRecord.unsupportedOperation) hcause.2.1
      | invalidRegister r =>
        obtain ⟨_, _, i, hi, _⟩ := hcause
        exact absurd (mem_values_of_decodeAtPc hi) hir
    · exact absurd (mem_values_of_decodeAtPc hi) hir
  · have hlatched : (latched (setInputs s.inputs.tail s)).fault = none := hnone
    obtain ⟨u, hexec, hfault⟩ : ∃ u, stepWith m s = .next u ∧ u.fault =
        if 8 ≤ a.toNat then some (.invalidRegister a)
        else if 8 ≤ b.toNat then some (.invalidRegister b) else none := by
      rcases hdecode with hi | hi <;> rw [stepWith_of_decodeAtPc hrun hturn hpc hi]
      · exact exists_exec_alu_fault_eq_ite (op := .mul) hlatched rfl
      · exact exists_exec_alu_fault_eq_ite (op := .cmp) hlatched rfl
    rw [hstep] at hexec
    cases hexec
    exact hfault

/-! ### The run state -/

/-- Settles O9, by the cases of a step. -/
theorem runStateChangesOnlyAsListed : Obligations.RunStateChangesOnlyAsListed := by
  intro m s t hstep
  cases stepCase_of_stepWith hstep with
  | hostMoves move hhead hmove ht =>
    subst ht
    obtain hsame | rfl | ⟨rfl, hload, hrunning⟩ := hostMove_runState move (setInputs s.inputs.tail s)
    · exact .inl hsame
    · exact .inr (.inl ⟨hhead, rfl⟩)
    · exact .inr (.inr (.inl ⟨hhead, hload, hrunning⟩))
  | waits hturn hrun ht => exact .inl (by rw [ht, setInputs_runState])
  | faults hturn hrun f ir opa opb hcause ht =>
    subst ht
    exact .inr (.inr (.inr (.inr ⟨hturn, hrun, rfl, rfl⟩)))
  | completes hturn hrun hpc i hdecode heffect =>
    obtain hsame | ⟨rfl, hhalted, _⟩ := heffect.runState_eq_or_hlt
    · exact .inl hsame
    · exact .inr (.inr (.inr (.inl ⟨hturn, hrun, hhalted, hdecode⟩)))

/-- In HALTED and FAULTED a step that is not `reset` only uses up the host's move (R74, R75). -/
theorem stepWith_of_ended {m : OpcodeMap} {s : State} (hended : s.runState = .halted ∨ s.runState = .faulted)
    (hreset : s.inputs.head? ≠ some .reset) : stepWith m s = .next (setInputs s.inputs.tail s) := by
  have hrun : s.runState ≠ .running := by rcases hended with h | h <;> rw [h] <;> nofun
  have hload : s.runState ≠ .load := by rcases hended with h | h <;> rw [h] <;> nofun
  obtain ⟨t, hstep⟩ := everyStepAnswersANextState m s
  cases stepCase_of_stepWith hstep with
  | hostMoves move hhead hmove ht =>
    have hne : move ≠ .reset := fun h => hreset (h ▸ hhead)
    rw [hstep, ht, hostMove_of_ne_load (by exact hload) hne]
  | waits hturn _ ht => rw [hstep, ht]
  | faults _ hrunning => exact absurd hrunning hrun
  | completes _ hrunning => exact absurd hrunning hrun

/-- Settles O10, by induction on the number of steps: each uses up one move of the host. -/
theorem endedRunStaysEndedUntilReset : Obligations.EndedRunStaysEndedUntilReset := by
  intro m k
  induction k with
  | zero => exact fun s _ _ => rfl
  | succ k ih =>
    intro s hended hreset
    have hhead : s.inputs.head? ≠ some .reset := fun h => by
      obtain ⟨rest, hin⟩ := List.head?_eq_some_iff.mp h
      exact hreset (by rw [hin]; exact List.mem_cons_self)
    have htail : HostMove.reset ∉ s.inputs.tail.take k := fun h => hreset (by
      cases hin : s.inputs with
      | nil => rw [hin] at h; simp at h
      | cons move rest => rw [hin] at h; exact List.mem_cons_of_mem _ h)
    rw [run_succ_of_step (stepWith_of_ended hended hhead), ih _ (by exact hended) (by exact htail)]
    simp only [setInputs, List.drop_tail]

/-- Settles O11. -/
theorem noCycleRunsOutsideRunning : Obligations.NoCycleRunsOutsideRunning := by
  intro m s hrun hin
  have hturn : s.coreHasTurn := .inl (by rw [hin]; rfl)
  rw [stepWith_of_coreHasTurn hturn, hin, List.tail_nil, setInputs_of_nil hin, coreTurn, if_neg hrun]

/-! ### Runs that stay where they are -/

/-- From a state that a step answers itself, a run of any length answers it. -/
theorem run_of_stepWith_self {m : OpcodeMap} {s : State} (h : stepWith m s = .next s) (k : Nat) :
    (coreWith m).run k s = .next s := by
  induction k with
  | zero => rfl
  | succ k ih => rw [run_succ_of_step h, ih]

/-- A jump to its own address changes the latches only (R86). -/
theorem stepWith_of_jump_to_itself {m : OpcodeMap} {s : State} {r : Byte} (hrun : s.runState = .running)
    (hin : s.inputs = []) (hpc : s.pc ≤ 253) (hdecode : s.decodeAtPc m = .ok (.jmp r))
    (hread : readReg r s = .ok (BitVec.ofNat 8 s.pc)) : stepWith m s = .next (latched s) := by
  have hturn : s.coreHasTurn := .inl (by rw [hin]; rfl)
  have hlatched : readReg r (latched s) = .ok (BitVec.ofNat 8 s.pc) := hread
  have htarget : (BitVec.ofNat 8 s.pc).toNat = s.pc := by rw [BitVec.toNat_ofNat]; omega
  rw [stepWith_of_decodeAtPc hrun hturn hpc hdecode, hin, List.tail_nil, setInputs_of_nil hin, exec, execJmp,
    jumpReg, withReg, hlatched]
  simp only [commit_ok, jumpTo, htarget]
  rfl

/-- Settles O12: after the first jump to itself the latches hold it, and the next step answers the same state. -/
theorem jumpToItselfNeverEnds : Obligations.JumpToItselfNeverEnds := by
  intro m s r hrun hin hpc hdecode hread k
  cases k with
  | zero => exact ⟨s, rfl, hrun, rfl, rfl⟩
  | succ k =>
    have hself : stepWith m (latched s) = .next (latched s) :=
      stepWith_of_jump_to_itself (s := latched s) hrun hin hpc hdecode hread
    rw [run_succ_of_step (stepWith_of_jump_to_itself hrun hin hpc hdecode hread)]
    exact ⟨latched s, run_of_stepWith_self hself k, hrun, rfl, rfl⟩

/-- Settles O34: HLT at `pc` is executed and leaves a machine that waits; at 254 and 255 its fetch faults. -/
theorem hltHalts : Obligations.HltHalts := by
  refine ⟨fun m ⟨hdistinct, _, _, hhlt⟩ u v => ?_, fun _ => rfl, fun m s ⟨hdistinct, _, _, hhlt⟩ hrun hin => ⟨?_, ?_⟩⟩
  · rw [← hhlt]
    refine ⟨rfl, decode_opcodeOf (i := .hlt) hdistinct ⟨[u, v], rfl⟩, fun h => ?_⟩
    have hzero : m.hlt = 0#8 := (opcodeOf_and_operandBytes_of_decode h).1
    exact absurd (hhlt.symm.trans hzero) (by decide)
  · intro hpc hir
    have hstep : stepWith m s = exec .hlt (latched s) :=
      stepWith_of_instr_at_pc hdistinct hrun hin (by omega) (hir.trans hhlt.symm) ⟨_, rfl⟩
    refine ⟨_, hstep, rfl, rfl, run_of_stepWith_self (noCycleRunsOutsideRunning m _ nofun hin)⟩
  · intro hlo hhi
    obtain ⟨t, hstep, hrunState, hfault, _⟩ := stepWith_of_254_le_of_le_255 m hrun hin hlo hhi
    exact ⟨t, hstep, hrunState, hfault⟩

/-! ### Who writes the flags, `pc` and the log -/

/-- A step other than `reset` completes the instruction at `pc`, or keeps `pc`, `sp`, the flags and the log. -/
theorem keeps_or_completes {m : OpcodeMap} {s t : State} (hstep : stepWith m s = .next t)
    (hreset : s.inputs.head? ≠ some .reset) :
    (t.pc = s.pc ∧ t.sp = s.sp ∧ t.flags = s.flags ∧ t.out = s.out) ∨
    (s.coreHasTurn ∧ s.runState = .running ∧ s.pc ≤ 253 ∧
      ∃ i, s.decodeAtPc m = .ok i ∧ Effect (latched (setInputs s.inputs.tail s)) t i) := by
  cases stepCase_of_stepWith hstep with
  | hostMoves move hhead hmove ht =>
    have hne : move ≠ .reset := fun h => hreset (h ▸ hhead)
    subst ht
    exact .inl ⟨hostMove_pc hne _, hostMove_sp hne _, hostMove_flags hne _, hostMove_out hne _⟩
  | waits hturn hrun ht => subst ht; exact .inl ⟨rfl, rfl, rfl, rfl⟩
  | faults hturn hrun f ir opa opb hcause ht => subst ht; exact .inl ⟨rfl, rfl, rfl, rfl⟩
  | completes hturn hrun hpc i hdecode heffect => exact .inr ⟨hturn, hrun, hpc, i, hdecode, heffect⟩

/-- A step other than `reset` keeps the flags, or completes a CMP (R18). -/
theorem flags_eq_or_cmp_of_stepWith {m : OpcodeMap} {s t : State} (hstep : stepWith m s = .next t)
    (hreset : s.inputs.head? ≠ some .reset) :
    t.flags = s.flags ∨ (s.coreHasTurn ∧ s.runState = .running ∧ s.pc ≤ 253 ∧
      ∃ a b v w, s.decodeAtPc m = .ok (.cmp a b) ∧ a.toNat < 8 ∧ b.toNat < 8 ∧ t.flags = aluCmp v w) := by
  obtain ⟨_, _, hflags, _⟩ | ⟨hturn, hrun, hpc, i, hdecode, heffect⟩ := keeps_or_completes hstep hreset
  · exact .inl hflags
  · obtain hsame | ⟨a, b, v, w, rfl, ha, hb, hflags⟩ := heffect.flags_eq_or_cmp
    · exact .inl hsame
    · exact .inr ⟨hturn, hrun, hpc, a, b, v, w, hdecode, ha, hb, hflags⟩

/-- Settles O45. -/
theorem onlyCmpWritesTheFlags : Obligations.OnlyCmpWritesTheFlags := by
  intro m s t hstep hne
  by_cases hreset : s.inputs.head? = some .reset
  · exact .inl hreset
  · obtain hsame | ⟨hturn, hrun, hpc, a, b, _, _, hdecode, ha, hb, _⟩ := flags_eq_or_cmp_of_stepWith hstep hreset
    · exact absurd hsame hne
    · exact .inr ⟨hturn, hrun, hpc, a, b, hdecode, ha, hb⟩

/-- Settles O46: a comparison sets exactly one flag, and a step that is no comparison and no `reset` keeps them. -/
theorem exactlyOneFlagFromTheFirstCmpOn : Obligations.ExactlyOneFlagFromTheFirstCmpOn := by
  refine ⟨fun a b s t ha hb hexec => ?_, fun m s t hstep hreset hexclusive hset => ?_⟩
  · rw [exec_cmp_of_lt ha hb] at hexec
    cases hexec
    exact aluCmp_exactly_one _ _
  · obtain hsame | ⟨_, _, _, _, _, v, w, _, _, _, hflags⟩ := flags_eq_or_cmp_of_stepWith hstep hreset
    · rw [hsame]; exact ⟨hexclusive, hset⟩
    · rw [hflags]; exact aluCmp_exactly_one v w

/-- Settles O48: a cycle that does not fault has the effect of the instruction at `pc`, and of the other steps
only `reset` reaches `pc`. -/
theorem pcAdvancesOrJumps : Obligations.PcAdvancesOrJumps := by
  refine fun m s t hstep => ⟨fun hturn hrun hne => ?_, fun hreset h => ?_⟩
  · obtain ⟨f, ir, opa, opb, _, rfl⟩ | ⟨_, i, hdecode, heffect⟩ := faults_or_completes hrun hturn hstep
    · exact absurd rfl hne
    · exact ⟨i, hdecode, heffect.pc_advances_or_jumps⟩
  · obtain ⟨hpc, _⟩ | ⟨hturn, hrun, _, i, _, heffect⟩ := keeps_or_completes hstep hreset
    · exact hpc
    · exact h.elim (absurd ⟨hturn, hrun⟩) (absurd · (heffect.runState_ne_faulted hrun))

/-- Settles O49: `reset` apart, a step keeps the log or completes a PRN, which appends one byte. -/
theorem onlyPrnAppendsToTheLog : Obligations.OnlyPrnAppendsToTheLog := by
  intro m s t hstep hreset
  have hout : t.out = s.out ++ [] ∨ (s.coreHasTurn ∧ s.runState = .running ∧
      ∃ r v, s.decodeAtPc m = .ok (.prn r) ∧ readReg r s = .ok v ∧ t.out = s.out ++ [v]) := by
    rw [List.append_nil]
    obtain ⟨_, _, _, hsame⟩ | ⟨hturn, hrun, _, i, hdecode, heffect⟩ := keeps_or_completes hstep hreset
    · exact .inl hsame
    · obtain hsame | ⟨r, v, rfl, hread, happend⟩ := heffect.out_eq_or_append
      · exact .inl hsame
      · exact .inr ⟨hturn, hrun, r, v, hdecode, hread, happend⟩
  obtain hsame | ⟨hturn, hrun, r, v, hdecode, hread, happend⟩ := hout
  · rw [outEvents_of_out_eq_append hsame]
    exact ⟨hsame, .inl rfl⟩
  · rw [outEvents_of_out_eq_append happend]
    exact ⟨happend, .inr ⟨hturn, hrun, r, v, hdecode, hread, rfl⟩⟩

end Sys2Proof.Machine
end

section
/-!
PROOFS. Frames: what an execute phase can lead to, instruction by instruction, and so what it leaves unchanged
(R81 to R88, R93).
-/
namespace Sys2Proof.Machine

theorem mem_pair_iff {r a b : Byte} : r ∈ [a, b] ↔ r = a ∨ r = b := by
  rw [List.mem_cons, List.mem_singleton]

/-- LDI writes its register and `pc`, or faults on its index (R81). -/
theorem exec_ldi_cases {ra imm : Byte} {s t : State} (h : exec (.ldi ra imm) s = .next t) :
    (∃ (hra : ra.toNat < 8) (v : Byte), t = { s with x := s.x.set ra.toNat v hra, pc := s.pc + 3 }) ∨
      (8 ≤ ra.toNat ∧ t = takeFault (.invalidRegister ra) s) := by
  rcases Nat.lt_or_ge ra.toNat 8 with hra | hra
  · rw [exec_ldi_of_lt hra] at h; cases h; exact .inl ⟨hra, imm, rfl⟩
  · rw [exec_ldi_of_le hra] at h; cases h; exact .inr ⟨hra, rfl⟩

/-- MUL writes its first register and `pc`, or faults on an index (R84). -/
theorem exec_mul_cases {ra rb : Byte} {s t : State} (h : exec (.mul ra rb) s = .next t) :
    (∃ (hra : ra.toNat < 8) (v : Byte), t = { s with x := s.x.set ra.toNat v hra, pc := s.pc + 3 }) ∨
      ∃ r, (r = ra ∨ r = rb) ∧ 8 ≤ r.toNat ∧ t = takeFault (.invalidRegister r) s := by
  obtain ⟨r, hr, hle, _, ht⟩ | ⟨hra, _, ht⟩ := exec_cases h
  · exact .inr ⟨r, mem_pair_iff.mp hr, hle, ht⟩
  · exact .inl ⟨hra, _, ht⟩

/-- CMP writes the flags and `pc`, or faults on an index (R85). -/
theorem exec_cmp_cases {ra rb : Byte} {s t : State} (h : exec (.cmp ra rb) s = .next t) :
    (∃ f, t = { s with flags := f, pc := s.pc + 3 }) ∨
      ∃ r, (r = ra ∨ r = rb) ∧ 8 ≤ r.toNat ∧ t = takeFault (.invalidRegister r) s := by
  obtain ⟨r, hr, hle, _, ht⟩ | ⟨_, _, ht⟩ := exec_cases h
  · exact .inr ⟨r, mem_pair_iff.mp hr, hle, ht⟩
  · exact .inl ⟨_, ht⟩

/-- A jump writes `pc`, or faults on its index (R86 to R88). -/
theorem exec_jump_cases {i : Instr} {ra : Byte} {s t : State} (hi : i = .jmp ra ∨ i = .jeq ra ∨ i = .jne ra)
    (h : exec i s = .next t) :
    (∃ a, t = { s with pc := a }) ∨ (8 ≤ ra.toNat ∧ t = takeFault (.invalidRegister ra) s) := by
  obtain ⟨r, hr, hle, _, ht⟩ | heffect := exec_cases h
  · have hra : r = ra := by rcases hi with rfl | rfl | rfl <;> exact List.mem_singleton.mp hr
    exact .inr ⟨hra ▸ hle, hra ▸ ht⟩
  · rcases hi with rfl | rfl | rfl
    · obtain ⟨_, ht⟩ := heffect; exact .inl ⟨_, ht⟩
    · obtain ⟨_, _, ht⟩ | ⟨_, ht⟩ := heffect <;> exact .inl ⟨_, ht⟩
    · obtain ⟨_, _, ht⟩ | ⟨_, ht⟩ := heffect <;> exact .inl ⟨_, ht⟩

/-- PRN appends to the log and writes `pc`, or faults on its index (R82). -/
theorem exec_prn_cases {ra : Byte} {s t : State} (h : exec (.prn ra) s = .next t) :
    (∃ v, t = { s with out := s.out ++ [v], pc := s.pc + 2 }) ∨
      (8 ≤ ra.toNat ∧ t = takeFault (.invalidRegister ra) s) := by
  obtain ⟨r, hr, hle, _, ht⟩ | ⟨_, ht⟩ := exec_cases h
  · have hra : r = ra := List.mem_singleton.mp hr
    exact .inr ⟨hra ▸ hle, hra ▸ ht⟩
  · exact .inl ⟨_, ht⟩

/-- Settles O41: LDI and MUL have one written state in common, and fault entry is the other end of both. -/
theorem ldiAndMulWriteOneRegister : Obligations.LdiAndMulWriteOneRegister := by
  intro ra b s t h
  have hcases : (∃ (hra : ra.toNat < 8) (v : Byte),
        t = { s with x := s.x.set ra.toNat v hra, pc := s.pc + 3 }) ∨
      ∃ r, (r = ra ∨ (r = b ∧ exec (.mul ra b) s = .next t)) ∧ 8 ≤ r.toNat ∧
        t = takeFault (.invalidRegister r) s := by
    rcases h with h | h
    · exact (exec_ldi_cases h).imp_right fun ⟨hra, ht⟩ => ⟨ra, .inl rfl, hra, ht⟩
    · exact (exec_mul_cases h).imp_right fun ⟨r, hr, hle, ht⟩ => ⟨r, hr.imp_right (⟨·, h⟩), hle, ht⟩
  obtain ⟨hra, v, rfl⟩ | ⟨r, hr, hle, rfl⟩ := hcases
  · exact ⟨fun j hj => readReg_set_other hj hra v s, rfl, rfl, rfl, fun _ => rfl, rfl, rfl, rfl, rfl, rfl,
      .inl ⟨rfl, rfl⟩⟩
  · exact ⟨fun _ _ => rfl, rfl, rfl, rfl, fun _ => rfl, rfl, rfl, rfl, rfl, rfl, .inr ⟨r, hr, hle, rfl⟩⟩

/-- Settles O42. -/
theorem cmpWritesOnlyFlags : Obligations.CmpWritesOnlyFlags := by
  intro ra rb s t h
  obtain ⟨f, rfl⟩ | ⟨r, hr, hle, rfl⟩ := exec_cmp_cases h
  · exact ⟨fun _ => rfl, rfl, rfl, fun _ => rfl, rfl, rfl, rfl, rfl, rfl, .inl ⟨rfl, rfl⟩⟩
  · exact ⟨fun _ => rfl, rfl, rfl, fun _ => rfl, rfl, rfl, rfl, rfl, rfl, .inr ⟨r, hr, hle, rfl⟩⟩

/-- Settles O43: the three jumps end in the same two ways. -/
theorem jumpsWriteOnlyThePc : Obligations.JumpsWriteOnlyThePc := by
  intro ra s t h
  have hcases : (∃ a, t = { s with pc := a }) ∨ (8 ≤ ra.toNat ∧ t = takeFault (.invalidRegister ra) s) := by
    rcases h with h | h | h
    · exact exec_jump_cases (.inl rfl) h
    · exact exec_jump_cases (.inr (.inl rfl)) h
    · exact exec_jump_cases (.inr (.inr rfl)) h
  obtain ⟨a, rfl⟩ | ⟨hle, rfl⟩ := hcases
  · exact ⟨fun _ => rfl, rfl, rfl, rfl, fun _ => rfl, rfl, rfl, rfl, rfl, rfl, .inl ⟨rfl, rfl⟩⟩
  · exact ⟨fun _ => rfl, rfl, rfl, rfl, fun _ => rfl, rfl, rfl, rfl, rfl, rfl, .inr ⟨hle, rfl⟩⟩

/-- Settles O44: what PRN and HLT share, then what each leaves of the log, the record and the run state. -/
theorem prnAndHltWriteNoRegister : Obligations.PrnAndHltWriteNoRegister := by
  intro ra s t h
  have hhlt : exec .hlt s = .next t → t.out = s.out ∧ t.fault = s.fault := fun h => by cases h; exact ⟨rfl, rfl⟩
  have hprn : exec (.prn ra) s = .next t → (t.runState = s.runState ∧ t.fault = s.fault) ∨
      (8 ≤ ra.toNat ∧ t = takeFault (.invalidRegister ra) s) := fun h =>
    (exec_prn_cases h).imp_left fun ⟨_, ht⟩ => by subst ht; exact ⟨rfl, rfl⟩
  have hcases : ∃ evs p r f, t = { s with out := s.out ++ evs, pc := p, runState := r, fault := f } := by
    rcases h with h | h
    · obtain ⟨v, rfl⟩ | ⟨_, rfl⟩ := exec_prn_cases h
      · exact ⟨[v], _, _, _, rfl⟩
      · exact ⟨[], s.pc, .faulted, some (.invalidRegister ra), by rw [List.append_nil]; rfl⟩
    · cases h
      exact ⟨[], s.pc + 1, .halted, s.fault, by rw [List.append_nil]; rfl⟩
  obtain ⟨evs, p, r, f, rfl⟩ := hcases
  exact ⟨fun _ => rfl, rfl, rfl, fun _ => rfl, rfl, rfl, rfl, rfl, rfl, ⟨evs, rfl⟩, hhlt, hprn⟩

end Sys2Proof.Machine
end

section
/-!
PROOFS. What no step reads: `sp` (R17), the fetch latches of the step before (R21), G and L (R18). Two states that
agree but for one of these have steps that agree but for it.
-/
namespace Sys2Proof.Machine

/-- A part of the state that no step reads. -/
inductive Hidden where
  | sp
  | latches
  | greaterLess

/-- The state with the hidden part cleared: two states agree but for it when they are the same once it is. -/
def clear : Hidden → State → State
  | .sp, s => { s with sp := 0#8 }
  | .latches, s => { s with ir := 0#8, opa := 0#8, opb := 0#8 }
  | .greaterLess, s => { s with flags := { e := s.flags.e, g := false, l := false } }

/-- Two answers that are next states and agree but for the hidden part. -/
def AgreeBut (k : Hidden) (o o' : Host.Outcome State Fault Refusal) : Prop :=
  ∃ t u, o = .next t ∧ o' = .next u ∧ clear k u = clear k t

theorem AgreeBut.symm {k : Hidden} {o o' : Host.Outcome State Fault Refusal} (h : AgreeBut k o o') :
    AgreeBut k o' o := by
  obtain ⟨t, u, ht, hu, htu⟩ := h
  exact ⟨u, t, hu, ht, htu.symm⟩

theorem AgreeBut.trans {k : Hidden} {o o' o'' : Host.Outcome State Fault Refusal} (h : AgreeBut k o o')
    (h' : AgreeBut k o' o'') : AgreeBut k o o'' := by
  obtain ⟨t, u, ht, hu, htu⟩ := h
  obtain ⟨u', w, hu', hw, huw⟩ := h'
  rw [hu] at hu'
  cases hu'
  exact ⟨t, w, ht, hw, huw.trans htu⟩

section
variable (k : Hidden) (s : State)

@[simp] theorem clear_mem : (clear k s).mem = s.mem := by cases k <;> rfl
@[simp] theorem clear_pc : (clear k s).pc = s.pc := by cases k <;> rfl
@[simp] theorem clear_e : (clear k s).flags.e = s.flags.e := by cases k <;> rfl
@[simp] theorem clear_runState : (clear k s).runState = s.runState := by cases k <;> rfl
@[simp] theorem clear_inputs : (clear k s).inputs = s.inputs := by cases k <;> rfl

theorem setInputs_clear (ms : List HostMove) : setInputs ms (clear k s) = clear k (setInputs ms s) := by
  cases k <;> rfl

theorem clear_takeFault_clear (f : FaultRecord) :
    clear k (takeFault f (clear k s)) = clear k (takeFault f s) := by cases k <;> rfl

theorem clear_latched_clear : clear k (latched (clear k s)) = clear k (latched s) := by cases k <;> rfl

end

/-- Fault entry agrees with itself. -/
theorem takeFault_agreeBut (k : Hidden) (f : FaultRecord) {s u : State} (h : clear k u = clear k s) :
    AgreeBut k (.next (takeFault f s)) (.next (takeFault f u)) :=
  ⟨_, _, rfl, rfl, by rw [← clear_takeFault_clear, h, clear_takeFault_clear]⟩

/-! ### The execute phase -/

theorem exec_jmp_clear (k : Hidden) (ra : Byte) (s : State) :
    AgreeBut k (exec (.jmp ra) s) (exec (.jmp ra) (clear k s)) := by
  rcases Nat.lt_or_ge ra.toNat 8 with hr | hr
  · exact ⟨_, _, exec_jmp_of_lt hr s, exec_jmp_of_lt hr _, by cases k <;> rfl⟩
  · exact ⟨_, _, exec_jmp_of_le hr s, exec_jmp_of_le hr _, clear_takeFault_clear ..⟩

/-- No execute phase reads the hidden part: its indices, its registers and E are elsewhere. -/
theorem exec_clear (k : Hidden) (i : Instr) (s : State) : AgreeBut k (exec i s) (exec i (clear k s)) := by
  cases i with
  | ldi ra imm =>
    rcases Nat.lt_or_ge ra.toNat 8 with hr | hr
    · exact ⟨_, _, exec_ldi_of_lt hr imm s, exec_ldi_of_lt hr imm _, by cases k <;> rfl⟩
    · exact ⟨_, _, exec_ldi_of_le hr imm s, exec_ldi_of_le hr imm _, clear_takeFault_clear ..⟩
  | prn ra =>
    rcases Nat.lt_or_ge ra.toNat 8 with hr | hr
    · exact ⟨_, _, exec_prn_of_readReg_ok (readReg_of_lt hr s), exec_prn_of_readReg_ok (readReg_of_lt hr _),
        by cases k <;> rfl⟩
    · exact ⟨_, _, exec_prn_of_readReg_error (readReg_of_le hr s), exec_prn_of_readReg_error (readReg_of_le hr _),
        clear_takeFault_clear ..⟩
  | hlt => exact ⟨_, _, rfl, rfl, by cases k <;> rfl⟩
  | mul ra rb =>
    rcases Nat.lt_or_ge ra.toNat 8 with hr | hr
    · rcases Nat.lt_or_ge rb.toNat 8 with hs | hs
      · exact ⟨_, _, exec_mul_of_lt hr hs s, exec_mul_of_lt hr hs _, by cases k <;> rfl⟩
      · exact ⟨_, _, exec_mul_of_alu_error (alu_aluSelect_of_lt_of_le .mul hr hs s),
          exec_mul_of_alu_error (alu_aluSelect_of_lt_of_le .mul hr hs _), clear_takeFault_clear ..⟩
    · exact ⟨_, _, exec_mul_of_alu_error (alu_aluSelect_of_le .mul hr rb s),
        exec_mul_of_alu_error (alu_aluSelect_of_le .mul hr rb _), clear_takeFault_clear ..⟩
  | cmp ra rb =>
    rcases Nat.lt_or_ge ra.toNat 8 with hr | hr
    · rcases Nat.lt_or_ge rb.toNat 8 with hs | hs
      · exact ⟨_, _, exec_cmp_of_lt hr hs s, exec_cmp_of_lt hr hs _, by cases k <;> rfl⟩
      · exact ⟨_, _, exec_cmp_of_alu_error (alu_aluSelect_of_lt_of_le .cmp hr hs s),
          exec_cmp_of_alu_error (alu_aluSelect_of_lt_of_le .cmp hr hs _), clear_takeFault_clear ..⟩
    · exact ⟨_, _, exec_cmp_of_alu_error (alu_aluSelect_of_le .cmp hr rb s),
        exec_cmp_of_alu_error (alu_aluSelect_of_le .cmp hr rb _), clear_takeFault_clear ..⟩
  | jmp ra => exact exec_jmp_clear k ra s
  | jeq ra =>
    cases he : s.flags.e with
    | true => rw [exec_jeq_of_e he, exec_jeq_of_e (by rwa [clear_e])]; exact exec_jmp_clear k ra s
    | false => exact ⟨_, _, exec_jeq_of_not_e he ra, exec_jeq_of_not_e (by rwa [clear_e]) ra, by cases k <;> rfl⟩
  | jne ra =>
    cases he : s.flags.e with
    | true => exact ⟨_, _, exec_jne_of_e he ra, exec_jne_of_e (by rwa [clear_e]) ra, by cases k <;> rfl⟩
    | false => rw [exec_jne_of_not_e he, exec_jne_of_not_e (by rwa [clear_e])]; exact exec_jmp_clear k ra s

theorem exec_agreeBut {k : Hidden} {s u : State} (h : clear k u = clear k s) (i : Instr) :
    AgreeBut k (exec i s) (exec i u) := by
  have hs := exec_clear k i s
  rw [← h] at hs
  exact hs.trans (exec_clear k i u).symm

/-! ### The step -/

/-- Dispatch goes by the bytes at `pc`, once the latches are filled from them (R70). -/
theorem dispatch_latched_clear (k : Hidden) (m : OpcodeMap) (s : State) :
    AgreeBut k (dispatch m (latched s)) (dispatch m (latched (clear k s))) := by
  have hdecode : (clear k s).decodeAtPc m = s.decodeAtPc m := by cases k <;> rfl
  cases h : s.decodeAtPc m with
  | ok i =>
    rw [dispatch_latched_of_ok h, dispatch_latched_of_ok (hdecode.trans h)]
    exact exec_agreeBut (clear_latched_clear k s) i
  | error why =>
    rw [dispatch_latched_of_error h, dispatch_latched_of_error (hdecode.trans h)]
    exact takeFault_agreeBut k _ (clear_latched_clear k s)

/-- No cycle reads the hidden part: the fetch phase reads memory and `pc`. -/
theorem cycle_clear (k : Hidden) (m : OpcodeMap) (s : State) :
    AgreeBut k (cycle m s) (cycle m (clear k s)) := by
  obtain ⟨hpc, hf⟩ | ⟨hpc, hf⟩ | ⟨hpc, hf⟩ | ⟨hpc, hf⟩ := fetch_cases s <;> rw [← clear_pc k] at hpc
  · rw [cycle, cycle, hf, fetch_of_lt hpc]
    exact dispatch_latched_clear k m s
  · rw [cycle, cycle, hf, fetch_of_le hpc]
    exact ⟨_, _, rfl, rfl, by cases k <;> rfl⟩
  · rw [cycle, cycle, hf, fetch_of_add_one_eq hpc]
    exact ⟨_, _, rfl, rfl, by cases k <;> rfl⟩
  · rw [cycle, cycle, hf, fetch_of_add_two_eq hpc]
    exact ⟨_, _, rfl, rfl, by cases k <;> rfl⟩

theorem coreTurn_clear (k : Hidden) (m : OpcodeMap) (s : State) :
    AgreeBut k (coreTurn m s) (coreTurn m (clear k s)) := by
  unfold coreTurn
  rw [clear_runState]
  split
  · exact cycle_clear k m s
  · exact ⟨s, clear k s, rfl, rfl, by cases k <;> rfl⟩

/-- No move of the host reads the hidden part (R100). -/
theorem clear_hostMove_clear (k : Hidden) (move : HostMove) (s : State) :
    clear k (hostMove move (clear k s)) = clear k (hostMove move s) := by
  cases move with
  | write a v =>
    simp only [hostMove, hostWrite, clear_runState, clear_mem]
    split
    · split <;> cases k <;> rfl
    · cases k <;> rfl
  | start =>
    simp only [hostMove, hostStart, clear_runState]
    split <;> cases k <;> rfl
  | reset => cases k <;> rfl
  | idle | writeReg _ _ | writePc _ | writeSp _ | writeFlags _ => cases k <;> rfl

theorem stepWith_clear (k : Hidden) (m : OpcodeMap) (s : State) :
    AgreeBut k (stepWith m s) (stepWith m (clear k s)) := by
  by_cases hturn : s.coreHasTurn
  · have hturn' : (clear k s).coreHasTurn := by rwa [State.coreHasTurn, clear_inputs]
    rw [stepWith_of_coreHasTurn hturn, stepWith_of_coreHasTurn hturn', clear_inputs, setInputs_clear]
    exact coreTurn_clear k m _
  · obtain ⟨move, hhead⟩ := Option.ne_none_iff_exists'.mp fun h => hturn (.inl h)
    have hmove : move ≠ .idle := fun h => hturn (.inr (h ▸ hhead))
    have hhead' : (clear k s).inputs.head? = some move := by rwa [clear_inputs]
    refine ⟨_, _, stepWith_of_move hhead hmove, stepWith_of_move hhead' hmove, ?_⟩
    rw [clear_inputs, setInputs_clear, clear_hostMove_clear]

/-- Steps from two states that agree but for the hidden part agree but for it. -/
theorem exists_stepWith_of_clear_eq {k : Hidden} {m : OpcodeMap} {s s' t : State} (h : clear k s' = clear k s)
    (hstep : stepWith m s = .next t) : ∃ u, stepWith m s' = .next u ∧ clear k u = clear k t := by
  have hs := stepWith_clear k m s
  rw [← h] at hs
  obtain ⟨t', u, ht, hu, htu⟩ := hs.trans (stepWith_clear k m s').symm
  rw [hstep] at ht
  cases ht
  exact ⟨u, hu, htu⟩

/-- Only the host's `reset` writes `sp` (R17). -/
theorem stepWith_sp {m : OpcodeMap} {s t : State} (hstep : stepWith m s = .next t)
    (hreset : s.inputs.head? ≠ some .reset) : t.sp = s.sp := by
  obtain ⟨_, hsp, _⟩ | ⟨_, _, _, i, _, heffect⟩ := keeps_or_completes hstep hreset
  · exact hsp
  · exact heffect.sp_eq

/-- Settles O50: the two steps agree but for `sp`, which each keeps. -/
theorem stackPointerIsNeverRead : Obligations.StackPointerIsNeverRead := by
  intro m s t v hreset hstep
  have hagree : clear .sp { s with sp := v } = clear .sp s := rfl
  obtain ⟨u, hu, hclear⟩ := exists_stepWith_of_clear_eq hagree hstep
  have husp : u.sp = v := stepWith_sp hu hreset
  have heq : { u with sp := v } = { t with sp := v } := congrArg (fun r : State => { r with sp := v }) hclear
  refine ⟨stepWith_sp hstep hreset, ?_⟩
  rw [hu, ← heq, ← husp]

/-- Settles O51. -/
theorem latchesCarryNothing : Obligations.LatchesCarryNothing := by
  intro m s t a b c hstep
  have hagree : clear .latches { s with ir := a, opa := b, opb := c } = clear .latches s := rfl
  exact exists_stepWith_of_clear_eq hagree hstep

/-- Settles O52: once G and L are cleared the two steps are the same, so they are the same with the flags of one
put in both. -/
theorem greaterAndLessAreNeverRead : Obligations.GreaterAndLessAreNeverRead := by
  intro m s t g l hstep
  have hagree : clear .greaterLess { s with flags := { s.flags with g := g, l := l } } = clear .greaterLess s := rfl
  obtain ⟨u, hu, hclear⟩ := exists_stepWith_of_clear_eq hagree hstep
  have he : (clear .greaterLess u).flags.e = (clear .greaterLess t).flags.e := by rw [hclear]
  exact ⟨u, hu, congrArg (fun r : State => { r with flags := t.flags }) hclear, he⟩

end Sys2Proof.Machine
end

section
/-!
PROOFS. Memory as a whole (R10, R40, R60): its canonical form is determined by its cells, a sequence of writes, and
an image laid from an address on.
-/
namespace Sys2Proof.Machine

/-- In canonical form, the entries are the cells that do not read as unlisted (R10). -/
theorem mem_iff_cellAt {mem : Memory} (h : mem.wf) (c : Host.Cell) :
    c ∈ mem ↔ cellAt mem c.1 = c.2 ∧ c.2 ≠ unlistedByte := by
  induction mem with
  | nil => exact iff_of_false List.not_mem_nil fun ⟨hcell, hne⟩ => hne hcell.symm
  | cons d rest ih =>
    obtain ⟨hlt, hrest⟩ := List.pairwise_cons.mp h.1
    have hrest : Memory.wf rest := ⟨hrest, fun c hc => h.2 c (List.mem_cons_of_mem d hc)⟩
    rw [List.mem_cons, ih hrest, cellAt_cons]
    by_cases hd : d.1 = c.1
    · have hfree : cellAt rest c.1 = unlistedByte := cellAt_of_forall_lt fun e he => hd ▸ hlt e he
      rw [if_pos hd, hfree]
      constructor
      · rintro (rfl | ⟨hcell, hne⟩)
        · exact ⟨rfl, (h.2 _ List.mem_cons_self).2⟩
        · exact absurd hcell.symm hne
      · rintro ⟨hv, _⟩
        exact .inl (Prod.ext hd hv).symm
    · rw [if_neg hd]
      exact or_iff_right fun hc => hd (congrArg Prod.fst hc).symm

/-- Memories in canonical form with the same cells are equal: their entries are the same, in the same order. -/
theorem eq_of_cellAt_eq {p q : Memory} (hp : p.wf) (hq : q.wf) (h : ∀ a, cellAt p a = cellAt q a) : p = q := by
  have hirrefl : ∀ {c d : Host.Cell}, c.1 < d.1 → c ≠ d := fun hlt heq => Nat.ne_of_lt hlt (congrArg Prod.fst heq)
  have hperm : p.Perm q := by
    refine (List.perm_ext_iff_of_nodup (hp.1.imp hirrefl) (hq.1.imp hirrefl)).mpr fun c => ?_
    rw [mem_iff_cellAt hp, mem_iff_cellAt hq, h]
  exact List.Perm.eq_of_pairwise (fun _ _ _ _ hlt hgt => absurd hgt (Nat.lt_asymm hlt)) hp.1 hq.1 hperm

/-- Above memory nothing is listed. -/
theorem cellAt_of_le {mem : Memory} (h : mem.wf) {a : Nat} (ha : 256 ≤ a) : cellAt mem a = unlistedByte := by
  refine Decidable.byContradiction fun hne => ?_
  have hmem : (a, cellAt mem a) ∈ mem := (mem_iff_cellAt h _).mpr ⟨rfl, hne⟩
  exact absurd (h.2 _ hmem).1 (Nat.not_lt.mpr ha)

/-- Settles O13: below 256 the reads are the cells, and above memory neither lists a cell. -/
theorem memoriesThatReadAlikeAreEqual : Obligations.MemoriesThatReadAlikeAreEqual := by
  intro p q hp hq hread
  refine eq_of_cellAt_eq hp hq fun a => ?_
  rcases Nat.lt_or_ge a 256 with ha | ha
  · have h := hread a
    rw [memRead_of_lt ha, memRead_of_lt ha] at h
    exact Except.ok.inj h
  · rw [cellAt_of_le hp ha, cellAt_of_le hq ha]

/-- Memory after writes made in order. -/
def putCells (mem : Memory) (writes : List (Nat × Byte)) : Memory :=
  writes.foldl (fun mem w => putCell mem w.1 w.2) mem

/-- Writes keep the canonical form. -/
theorem putCells_wf {mem : Memory} (h : mem.wf) {writes : List (Nat × Byte)} (hw : ∀ w ∈ writes, w.1 < 256) :
    (putCells mem writes).wf := by
  induction writes generalizing mem with
  | nil => exact h
  | cons w rest ih =>
    exact ih (putCell_wf h (hw w List.mem_cons_self) w.2) fun v hv => hw v (List.mem_cons_of_mem w hv)

/-- After writes, the latest one first, a cell holds the byte of the first one to its address (R40). -/
theorem cellAt_putCells_reverse {latest : List (Nat × Byte)} (hw : ∀ w ∈ latest, w.1 < 256) (a : Nat) :
    cellAt (putCells State.reset.mem latest.reverse) a =
      ((latest.find? fun w => w.1 == a).map Prod.snd).getD 0#8 := by
  induction latest with
  | nil => rfl
  | cons w earlier ih =>
    have hearlier : ∀ v ∈ earlier, v.1 < 256 := fun v hv => hw v (List.mem_cons_of_mem w hv)
    have hwf : (putCells State.reset.mem earlier.reverse).wf :=
      putCells_wf reset_mem_wf fun v hv => hearlier v (List.mem_reverse.mp hv)
    have hput : putCells State.reset.mem (w :: earlier).reverse =
        putCell (putCells State.reset.mem earlier.reverse) w.1 w.2 := by
      rw [putCells, List.reverse_cons, List.foldl_append]
      rfl
    rw [hput, cellAt_putCell hwf.1, ih hearlier, List.find?_cons]
    by_cases haw : a = w.1
    · rw [if_pos haw, beq_iff_eq.mpr haw.symm]; rfl
    · rw [if_neg haw, beq_eq_false_iff_ne.mpr (Ne.symm haw)]

/-- Settles O15: the writes in reverse are the latest one first. -/
theorem readReturnsTheLatestWrite : Obligations.ReadReturnsTheLatestWrite := by
  intro writes hwrites a ha
  have hcell := cellAt_putCells_reverse (latest := writes.reverse)
    (fun w hw => hwrites w (List.mem_reverse.mp hw)) a
  rw [List.reverse_reverse] at hcell
  rw [memRead_of_lt ha]
  exact congrArg Except.ok hcell

/-! ### An image in memory -/

/-- An image is read back from the address it is laid at, and the cells below it and above it stay (R60). -/
theorem cellAt_layImage {mem : Memory} (h : mem.wf) {a : Nat} {image : List Byte} (hlen : a + image.length ≤ 256)
    (b : Nat) :
    cellAt (layImage a mem image) b = if b < a then cellAt mem b else image.getD (b - a) (cellAt mem b) := by
  induction image generalizing a mem with
  | nil => simp [layImage]
  | cons v image ih =>
    rw [List.length_cons] at hlen
    rw [layImage, ih (putCell_wf h (by omega) v) (by omega), cellAt_putCell h.1]
    rcases Nat.lt_trichotomy b a with hlt | rfl | hgt
    · rw [if_pos (by omega), if_pos hlt, if_neg (by omega)]
    · rw [if_pos (Nat.lt_succ_self b), if_pos rfl, if_neg (Nat.lt_irrefl b), Nat.sub_self, List.getD_cons_zero]
    · obtain ⟨n, rfl⟩ := Nat.exists_eq_add_of_lt hgt
      have hskip : a + n + 1 - (a + 1) = n := by omega
      have hkeep : a + n + 1 - a = n + 1 := by omega
      rw [if_neg (by omega), if_neg (by omega), if_neg (by omega), hskip, hkeep, List.getD_cons_succ]

/-- Laying an image within memory keeps the canonical form. -/
theorem layImage_wf {mem : Memory} (h : mem.wf) {a : Nat} {image : List Byte} (hlen : a + image.length ≤ 256) :
    (layImage a mem image).wf := by
  induction image generalizing a mem with
  | nil => exact h
  | cons v image ih =>
    rw [List.length_cons] at hlen
    exact ih (putCell_wf h (by omega) v) (by omega)

/-- Settles O56. -/
theorem launchStateHoldsTheImage : Obligations.LaunchStateHoldsTheImage := by
  intro image hlen
  have hlen : 0 + image.length ≤ 256 := by omega
  refine ⟨fun a ha => ?_, layImage_wf reset_mem_wf hlen, rfl⟩
  rw [memRead_of_lt ha]
  exact congrArg _ (cellAt_layImage reset_mem_wf hlen a)

end Sys2Proof.Machine
end

section
/-!
PROOFS. The host (R37 to R39, R99 to R107): the load port, `start` and the refused writes, the ports it reads, the
text of the output, and the boot.
-/
namespace Sys2Proof.Machine

/-! ### Moves -/

/-- A step takes the host's first move, unless it is idle. -/
theorem stepWith_of_cons (m : OpcodeMap) {s : State} {move : HostMove} {rest : List HostMove}
    (hin : s.inputs = move :: rest) (hmove : move ≠ .idle) :
    stepWith m s = .next (hostMove move (setInputs rest s)) := by
  rw [stepWith_of_move (by rw [hin]; rfl) hmove, hin, List.tail_cons]

theorem hostWrite_of_lt {s : State} (hload : s.runState = .load) {a : Nat} (ha : a < 256) (v : Byte) :
    hostWrite a v s = setHostWrErr false (setMem (putCell s.mem a v) s) := by
  rw [hostWrite, if_pos hload, memWrite_of_lt ha]

theorem hostWrite_of_le {s : State} (hload : s.runState = .load) {a : Nat} (ha : 256 ≤ a) (v : Byte) :
    hostWrite a v s = setHostWrErr true s := by
  rw [hostWrite, if_pos hload, memWrite_of_le ha]

/-- Settles O53: what the write leaves, by the run state and the address. -/
theorem loadPortWritesInLoadOnly : Obligations.LoadPortWritesInLoadOnly := by
  intro m s a v rest hmem hin
  rw [stepWith_of_cons m hin nofun]
  refine ⟨fun hload ha => ?_, fun hload ha => ?_, fun hload => ?_⟩
  · exact ⟨_, memRead_putCell_same hmem ha v, fun b hb => memRead_putCell_other hmem hb v,
      congrArg Host.Outcome.next (hostWrite_of_lt (s := setInputs rest s) hload ha v)⟩
  · exact congrArg Host.Outcome.next (hostWrite_of_le (s := setInputs rest s) hload ha v)
  · exact congrArg Host.Outcome.next (hostMove_of_ne_load (s := setInputs rest s) hload nofun)

/-- Settles O54: `start` by the run state; the refused writes are moves without effect. -/
theorem startRunsAndRegisterWritesAreRefused : Obligations.StartRunsAndRegisterWritesAreRefused := by
  refine fun m s rest => ⟨fun hin => ?_, fun i v w a f hin => ?_⟩
  · rw [stepWith_of_cons m hin nofun]
    exact ⟨fun hload => congrArg Host.Outcome.next (hostStart_of_load (s := setInputs rest s) hload),
      fun hload => congrArg Host.Outcome.next (hostMove_of_ne_load (s := setInputs rest s) hload nofun)⟩
  · rcases hin with hin | hin | hin | hin <;> exact stepWith_of_cons m hin nofun

/-! ### Ports -/

theorem observe_of_ne_running {s : State} (h : s.runState ≠ .running) :
    observe s = some { mem := s.mem, x := s.x, pc := s.pc, sp := s.sp, flags := s.flags, out := s.out,
                       fault := s.fault, runState := s.runState } := if_neg h

/-- Settles O55, port by port. -/
theorem hostSeesTheStateOutsideRunning : Obligations.HostSeesTheStateOutsideRunning := by
  refine ⟨fun s => ⟨fun h => ?_, fun h => if_pos h⟩, fun s o h => ?_, fun s => ?_, fun s => ?_,
    fun s a hf ha => ?_, fun s i hf => ?_, fun s v hf => ?_⟩
  · refine Decidable.byContradiction fun hrun => ?_
    rw [observe_of_ne_running hrun] at h
    cases h
  · have hrun : s.runState ≠ .running := fun hrun => by rw [observe, if_pos hrun] at h; cases h
    rw [observe_of_ne_running hrun] at h
    cases h
    exact ⟨rfl, rfl, rfl, rfl, rfl, rfl, rfl, rfl⟩
  · unfold runStateCode
    cases s.runState <;> decide
  · unfold faultKind
    rcases s.fault with _ | (_ | _ | _) <;> simp
  · rw [faultKind, faultInfo, hf]
    exact ⟨rfl, (BitVec.toNat_ofNat a 9).trans (Nat.mod_eq_of_lt ha)⟩
  · rw [faultKind, faultInfo, hf]
    exact ⟨rfl, BitVec.toNat_setWidth_of_le (by decide)⟩
  · rw [faultKind, faultInfo, hf]
    exact ⟨rfl, BitVec.toNat_setWidth_of_le (by decide)⟩

/-! ### The text of the output -/

/-- The character of a decimal digit. -/
def digitChar (d : Nat) : Byte := BitVec.ofNat 8 (0x30 + d)

theorem digitChar_toNat {d : Nat} (h : d < 10) : (digitChar d).toNat = 0x30 + d := by
  rw [digitChar, BitVec.toNat_ofNat]; omega

theorem renderOut_nil : renderOut [] = [] := rfl

/-- The text of a log is the digits of its first byte, a line feed, and the text of the rest (R99, D13). -/
theorem renderOut_cons (v : Byte) (out : List Byte) :
    renderOut (v :: out) = (decimalDigits v.toNat).map digitChar ++ 0x0A#8 :: renderOut out := by
  rw [renderOut, List.flatMap_cons, renderByte_eq_decimalDigits, List.append_assoc]
  rfl

/-- No digit is a line feed. -/
theorem lineFeed_notMem_digits (n : Nat) : 0x0A#8 ∉ (decimalDigits n).map digitChar := by
  intro hmem
  obtain ⟨d, hd, heq⟩ := List.mem_map.mp hmem
  have h := digitChar_toNat (lt_ten_of_mem_decimalDigits hd)
  rw [heq] at h
  have : (0x0A#8).toNat = 10 := rfl
  omega

/-- The first line of a log's text, up to its line feed, is the first byte's digits. -/
theorem takeWhile_renderOut_cons (v : Byte) (out : List Byte) :
    (renderOut (v :: out)).takeWhile (· != 0x0A#8) = (decimalDigits v.toNat).map digitChar := by
  have hdigits : ∀ c ∈ (decimalDigits v.toNat).map digitChar, (c != 0x0A#8) = true := fun c hc =>
    bne_iff_ne.mpr fun h => lineFeed_notMem_digits v.toNat (h ▸ hc)
  rw [renderOut_cons, List.takeWhile_append_of_pos hdigits, List.takeWhile_cons_of_neg (by decide), List.append_nil]

/-- The digits' characters tell the digits. -/
theorem map_digitChar_inj {ds es : List Nat} (hd : ∀ d ∈ ds, d < 10) (he : ∀ e ∈ es, e < 10)
    (h : ds.map digitChar = es.map digitChar) : ds = es := by
  have hback : ∀ ds : List Nat, (∀ d ∈ ds, d < 10) → (ds.map digitChar).map (fun c => c.toNat - 0x30) = ds := by
    intro ds hds
    rw [List.map_map]
    refine (List.map_congr_left fun d hmem => ?_).trans (List.map_id ds)
    rw [Function.comp_apply, digitChar_toNat (hds d hmem), id]
    omega
  rw [← hback ds hd, h, hback es he]

/-- The digits tell the byte: read in base ten they are its value. -/
theorem eq_of_decimalDigits_eq {v w : Byte} (h : decimalDigits v.toNat = decimalDigits w.toNat) : v = w := by
  refine BitVec.eq_of_toNat_eq ?_
  rw [← foldl_decimalDigits (n := v.toNat) (by omega), h, foldl_decimalDigits (by omega)]

/-- Settles O58, by induction on the first log: the first line of a text tells the first byte of its log. -/
theorem renderedOutputTellsTheLog : Obligations.RenderedOutputTellsTheLog := by
  intro p
  induction p with
  | nil =>
    intro q h
    cases q with
    | nil => rfl
    | cons w q => simp [renderOut_cons, renderOut_nil] at h
  | cons v p ih =>
    intro q h
    cases q with
    | nil => simp [renderOut_cons, renderOut_nil] at h
    | cons w q =>
      have hdigits : (decimalDigits v.toNat).map digitChar = (decimalDigits w.toNat).map digitChar := by
        rw [← takeWhile_renderOut_cons v p, h, takeWhile_renderOut_cons w q]
      have hvw : v = w := eq_of_decimalDigits_eq (map_digitChar_inj (fun _ => lt_ten_of_mem_decimalDigits)
        (fun _ => lt_ten_of_mem_decimalDigits) hdigits)
      rw [renderOut_cons, renderOut_cons, hdigits] at h
      rw [hvw, ih q (List.cons.inj (List.append_cancel_left h)).2]

/-! ### The boot -/

/-- Booting from an address on: each write lays one byte, and `start` runs the machine (R106). -/
theorem run_loadMoves_start (m : OpcodeMap) (image : List Byte) {a : Nat} (hlen : a + image.length ≤ 256)
    (mem : Memory) :
    (coreWith m).run (image.length + 1) (setInputs (loadMoves a image ++ [.start]) (setMem mem State.reset)) =
      .next (setRunState .running (setMem (layImage a mem image) State.reset)) := by
  induction image generalizing a mem with
  | nil => rfl
  | cons v image ih =>
    rw [List.length_cons] at hlen
    have haddr : (BitVec.ofNat 9 a).toNat = a := by rw [BitVec.toNat_ofNat]; omega
    have hstep : stepWith m (setInputs (loadMoves a (v :: image) ++ [.start]) (setMem mem State.reset)) =
        .next (setInputs (loadMoves (a + 1) image ++ [.start]) (setMem (putCell mem a v) State.reset)) := by
      rw [stepWith_of_cons m (move := .write (BitVec.ofNat 9 a) v) rfl nofun, hostMove, haddr,
        hostWrite_of_lt rfl (by omega)]
      rfl
    rw [List.length_cons, run_succ_of_step hstep]
    exact ih (by omega) _

/-- Settles O57. -/
theorem bootReachesTheLaunchState : Obligations.BootReachesTheLaunchState :=
  fun m image hlen => run_loadMoves_start m image (by omega) []

end Sys2Proof.Machine
end
